-- ==== Sys2Proof/Word.lean ====
section
/-! DEFINITION. The word and byte types (spec 00_scope.md section 6.1) and the five-word chaining value
(rule R10). -/

namespace Sys2Proof

/-- A word: 32 bits, bit 0 least significant (spec section 6.1, `WORD_BITS` of rule R4). -/
abbrev Word := BitVec 32

/-- A byte: 8 bits. -/
abbrev Byte := BitVec 8

/-- Exactly 64 bytes, in position order: the unit the Block Transform consumes (rules R65, R80). -/
abbrev Block := Vector Byte 64

/-- Five 32-bit words in index order. It is the type of the running state `H[0..4]` (rule R10) and, with
`h0 … h4` read as `a … e`, of the five working variables of the transform (rules R21, R70). -/
structure Chain where
  h0 : Word
  h1 : Word
  h2 : Word
  h3 : Word
  h4 : Word
  deriving DecidableEq, Repr

end Sys2Proof
end

