-- ==== Sys2Proof/Syntax.lean ====
section
/-! DEFINITION. The commands of spec/opcode_table.json, the inputs a host can give the core (rules R6, R131), and the
lines of the assembler of rules R55 to R57. -/

namespace Sys2Proof

/-- One constructor per row of spec/opcode_table.json. The `data` field of INIT, FINALIZE and the reserved encoding is
ignored (rule R50), so only UPDATE carries it. -/
inductive Instr where
  /-- `INIT`, `op = 0b00` (rule R86). -/
  | init
  /-- `UPDATE data`, `op = 0b01`, one message byte (rule R87). -/
  | update (data : Byte)
  /-- `FINALIZE`, `op = 0b10` (rule R92). -/
  | finalize
  /-- The reserved encoding, `op = 0b11` (rule R49). -/
  | reserved
  deriving DecidableEq, Repr

/-- A command word of format `CMD10`: `op = cmd[9:8]`, `data = cmd[7:0]` (rule R47). -/
abbrev CommandWord := BitVec 10

/-- What the host does to the core (rules R6, R131). Sampling a port has no effect (rule R38), so it is no input. -/
inductive HostInput where
  /-- A command word presented on the command port. -/
  | command (w : CommandWord)
  /-- The reset input asserted and released between commands. -/
  | reset
  /-- The reset input asserted while the command `w` is presented or in progress (rules R116, R131). -/
  | resetDuring (w : CommandWord)
  deriving DecidableEq, Repr

/-- A byte operand as an assembler line spells it (rule R55): `0x61`, or `'a'`. -/
inductive ByteOperand where
  | hex (value : Nat)
  | chr (c : Char)
  deriving DecidableEq, Repr

/-- One line of assembler text (rules R55, R56, R57). -/
inductive SourceLine where
  /-- An empty line, or one that holds only a comment. -/
  | blank
  | init
  | update (b : ByteOperand)
  | finalize
  | reserved
  /-- `RESET`: not a command, the reset input asserted (rule R55). -/
  | reset
  /-- `UPDATE_CHUNK b0 b1 …` (rule R56). -/
  | updateChunk (bs : List ByteOperand)
  /-- `UPDATE_CHUNK "text"` (rule R56). -/
  | updateText (text : List Char)
  /-- `DIGEST b0 b1 …` (rule R57). -/
  | digest (bs : List ByteOperand)
  deriving DecidableEq, Repr

end Sys2Proof
end

