-- ==== Sys2Proof/WellFormed.lean ====
section
/-! DEFINITION. Which terms of the syntax are legal. A command's only operand is an 8-bit field, every value of which
is legal (rules R47, R48), so every `Instr` is well-formed; the checks that can fail are those of the assembler's
operands and of a command word given as a number (rules R47, R55). -/

namespace Sys2Proof

/-- Every command is well-formed: `data` is any of `0x00` to `0xFF` (rules R47, R50). -/
def Instr.wellFormed : Instr → Bool
  | .init => true
  | .update _ => true
  | .finalize => true
  | .reserved => true

/-- A number is a command word when it fits the 10 bits of format `CMD10` (rule R47). -/
def wordWellFormed (w : Nat) : Bool := decide (w < 2 ^ 10)

/-- `<byte>` is `0x00` to `0xFF` or a single-quoted ASCII character (rule R55). -/
def ByteOperand.wellFormed : ByteOperand → Bool
  | .hex v => decide (v < 256)
  | .chr c => decide (c.toNat < 128)

/-- A line is well-formed when each of its byte operands is (rules R55 to R57). -/
def SourceLine.wellFormed : SourceLine → Bool
  | .blank => true
  | .init => true
  | .update b => b.wellFormed
  | .finalize => true
  | .reserved => true
  | .reset => true
  | .updateChunk bs => bs.all ByteOperand.wellFormed
  | .updateText cs => cs.all fun c => decide (c.toNat < 128)
  | .digest bs => bs.all ByteOperand.wellFormed

end Sys2Proof
end

