-- ==== Sys2Proof/Decode.lean ====
section
/-! DEFINITION. Decoding and encoding of the command word (rules R47 to R51), and the opcode table as rows of a mask
and a match. -/

namespace Sys2Proof

/-- `op = cmd[9:8]` (rule R47). -/
def opField (w : CommandWord) : BitVec 2 := w.extractLsb' 8 2

/-- `data = cmd[7:0]` (rule R47). -/
def dataField (w : CommandWord) : Byte := w.extractLsb' 0 8

/-- The four values of `op` are exhaustive, so decoding is total over the 1024 command words, and no mode changes it
(rules R48, R51). -/
def decodeWord (w : CommandWord) : Instr :=
  if opField w = 0b00#2 then .init
  else if opField w = 0b01#2 then .update (dataField w)
  else if opField w = 0b10#2 then .finalize
  else .reserved

/-- Why a number is no instruction. -/
inductive DecodeError where
  /-- The number does not fit the 10 bits of the command port (rule R47). -/
  | notTenBits (w : Nat)
  deriving DecidableEq, Repr

/-- Decoding of any number: what is no 10-bit word is rejected by name (rule R47, log entry 10). -/
def decode (w : Nat) : Except DecodeError Instr :=
  if wordWellFormed w then .ok (decodeWord (BitVec.ofNat 10 w)) else .error (.notTenBits w)

/-- `op ‖ data`. -/
def makeWord (op : BitVec 2) (data : Byte) : CommandWord := op ++ data

/-- The canonical word of a command, with `data = 0` where it is ignored (rules R48, R50, R55). -/
def encode : Instr → CommandWord
  | .init => makeWord 0b00 0x00
  | .update data => makeWord 0b01 data
  | .finalize => makeWord 0b10 0x00
  | .reserved => makeWord 0b11 0x00

/-- The instruction the decoder reads from an opcode-table word: `w` numbered with bit 0 least significant, of which
`nbits` bits are given and every bit above is 0. -/
def decodeTableWord (nbits w : Nat) : Option Instr :=
  match decode (w % 2 ^ nbits) with
  | .ok i => some i
  | .error _ => none

/-- One row of the opcode map of rule R48. -/
structure OpcodeRow where
  mnemonic : String
  mask : CommandWord
  value : CommandWord
  deriving DecidableEq, Repr

/-- A word belongs to a row when its bits under the mask are the row's match. -/
def OpcodeRow.covers (r : OpcodeRow) (w : CommandWord) : Bool := w &&& r.mask == r.value

/-- The opcode map (rule R48), row by row as spec/opcode_table.json lists it. -/
def opcodeTable : List OpcodeRow :=
  [⟨"INIT", 0x300, 0x000⟩, ⟨"UPDATE", 0x300, 0x100⟩, ⟨"FINALIZE", 0x300, 0x200⟩, ⟨"RESERVED", 0x300, 0x300⟩]

/-- The table's name of a command. -/
def Instr.mnemonic : Instr → String
  | .init => "INIT"
  | .update _ => "UPDATE"
  | .finalize => "FINALIZE"
  | .reserved => "RESERVED"

end Sys2Proof
end

