-- ==== Sys2Proof/Config.lean ====
section
/-! DEFINITION. What is fixed for the hardware: the sizes of rule R4, and the one free value of the model (the bytes
of the block buffer that the spec leaves unspecified). The open parameters of rule R4 (`LAT_INIT`, `LAT_UPDATE`,
`LAT_TRANSFORM`, `LAT_FINALIZE`, `RESET_STYLE`) have no constant here: no rule depends on them (log entry 1). -/

namespace Sys2Proof

/-- `STATE_WORDS` (rule R4): words of the running state. -/
abbrev Config.stateWords : Nat := 5

/-- `BLOCK_BYTES` (rule R4): bytes of one block. -/
abbrev Config.blockBytes : Nat := 64

/-- `SCHED_WORDS` (rule R4): words of the message schedule. -/
abbrev Config.schedWords : Nat := 80

/-- `LEN_BITS` (rule R4): width of the bit-length counter. -/
abbrev Config.lenBits : Nat := 64

/-- `DIGEST_BYTES` (rule R4): bytes of the digest. -/
abbrev Config.digestBytes : Nat := 20

/-- `MAX_CARRY` (rule R4): most bytes held in the buffer between two commands. -/
abbrev Config.maxCarry : Nat := 63

/-- `CMD_BITS` (rule R4, decision D3): width of a command word. -/
abbrev Config.cmdBits : Nat := 10

/-- FREE VALUE (log entry 5). The bytes of the block buffer that the spec calls unspecified: those nothing has
written since reset or since the last FINALIZE (rules R15, R24, R97). It has no body, so no proof can see a byte of
it. It is applied to `64 * freeCount + position`, where `freeCount` is the model's own counter in State. -/
opaque Config.freeByte : Nat → Byte

end Sys2Proof
end

