-- ==== Sys2Proof/Machine/Constants.lean ====
section
/-! DEFINITION. The constants of the algorithm: the initial running state (rule R11) and the four round constants
(rules R71 to R74). -/

namespace Sys2Proof.Machine

/-- `H_INIT`, the initial value of the running state (rule R11). -/
def hInit : Chain := ⟨0x67452301, 0xEFCDAB89, 0x98BADCFE, 0x10325476, 0xC3D2E1F0⟩

/-- `K_t`: the additive constant of the stage that round `t` falls in (rules R71 to R74). -/
def roundConstant (t : Nat) : Word :=
  if t < 20 then 0x5A827999
  else if t < 40 then 0x6ED9EBA1
  else if t < 60 then 0x8F1BBCDC
  else 0xCA62C1D6

end Sys2Proof.Machine
end

