-- ==== Sys2Proof/Machine/State.lean ====
section
/-! DEFINITION. The state of the core (spec 10_state.md), the reasons a step can stop, and the state after reset
(rules R24, R130). -/

namespace Sys2Proof.Machine

/-- The driver's state machine (rule R16). The code `0b11` never occurs, so the type does not have it. -/
inductive Phase where
  | empty
  | accumulating
  | finalized
  deriving DecidableEq, Repr

/-- The response codes that are produced (rule R52). The code `0b11` is never produced, so the type does not have
it. -/
inductive Response where
  | ok
  | invalidState
  | invalidCommand
  deriving DecidableEq, Repr

/-- The block buffer's contents, `buf[0..63]` (rules R15, R30): the positions that hold a specified byte, with that
byte, positions strictly rising. An unlisted position holds an unspecified byte (log entry 5). -/
abbrev Memory := List Host.Cell

/-- The state of one core. `H` to `lenOvf` are the 745 bits of architectural state of 10_state.md section 1, `rsp` is
the response port, `input` is the host's side of the command and reset ports, and `freeCount` is the model's own. -/
structure State where
  /-- The running state `H[0..4]` (rules R10 to R13). -/
  H : Chain
  /-- The Bit Length Counter, 64 bits (rule R14). -/
  bitlen : BitVec 64
  /-- The Input Buffer, 64 bytes (rule R15). -/
  buf : Memory
  /-- The count of valid bytes in `buf`, 6 bits, 0 to 63 (rule R15). -/
  bufLen : BitVec 6
  /-- The state machine's state (rule R16). -/
  phase : Phase
  /-- The sticky length-overflow flag (rule R17). -/
  lenOvf : Bool
  /-- The response port: the response to the latest accepted command, none where no command has been accepted since
  reset (rules R46, R52, R130, log entry 4). -/
  rsp : Option Response
  /-- What the host gives the core from here on, in order, none of it accepted yet (rules R6, R39, log entry 2). -/
  input : List HostInput
  /-- The model's own counter: which unspecified contents the unlisted positions of `buf` have (log entry 5). -/
  freeCount : Nat
  deriving DecidableEq, Repr

/-- The reasons the machine stops with a fault: there are none. A refused command is answered with a response code and
the machine goes on (rule R114), the transform is total and padding is total (rules R79, R110), and no access is ever
outside the buffer (rule R36). Nothing raises a fault, which is safe: the type has no constructor (log entry 9). -/
inductive Fault where
  deriving DecidableEq, Repr

/-- The reasons the model gives no meaning to a step. -/
inductive Refusal where
  /-- Raised only by an arm of `exec` that has no meaning yet, with the mnemonic of spec/opcode_table.json; every arm
  has one, so nothing raises it. Safe: the run stops. -/
  | notModelled (mnemonic : String)
  deriving DecidableEq, Repr

/-- The outcome of one step of this machine. -/
abbrev Result := Host.Outcome State Fault Refusal

/-- The machine right after reset (rules R24, R130): `H = H_INIT`, `bitlen = 0`, `buf_len = 0`, `len_ovf = 0`, phase
Empty, no response pending, the bytes of `buf` unspecified (nothing listed). -/
def State.reset : State where
  H := hInit
  bitlen := 0
  buf := []
  bufLen := 0
  phase := .empty
  lenOvf := false
  rsp := none
  input := []
  freeCount := 0

end Sys2Proof.Machine
end

