-- ==== Sys2Proof/Machine/Flags.lean ====
section
/-! DEFINITION. The bit-length counter's arithmetic and the one flag, `len_ovf` (rules R17, R88, R104). -/

namespace Sys2Proof.Machine

/-- `add64(x, y)`: the sum modulo 2^64 (spec section 6.2). -/
def add64 (x y : BitVec 64) : BitVec 64 := x + y

/-- `carry64(x, y)`: 1 when `x + y >= 2^64` as integers (spec section 6.2). -/
def carry64 (x y : BitVec 64) : Bool := decide (2 ^ 64 ≤ x.toNat + y.toNat)

/-- `len_ovf` after an accepted UPDATE: set when the addition of 8 carries out of bit 63, otherwise as it was (rules
R17, R87). -/
def lenOvfAfter (bitlen : BitVec 64) (lenOvf : Bool) : Bool := lenOvf || carry64 bitlen 8

/-- UPDATE's counting of its byte: `len_ovf` and `bitlen`, nothing else (rule R88). -/
def countByte (s : State) : State :=
  { s with lenOvf := lenOvfAfter s.bitlen s.lenOvf, bitlen := add64 s.bitlen 8 }

end Sys2Proof.Machine
end

