-- ==== Sys2Proof/Machine/Operands.lean ====
section
/-! DEFINITION. The byte views of words, of the length field and of the running state (rules R31 to R35): every
multi-byte quantity is big-endian. -/

namespace Sys2Proof.Machine

/-- `be32(b0, b1, b2, b3) = b0 ‖ b1 ‖ b2 ‖ b3` (spec section 6.2, rule R31). -/
def be32 (b0 b1 b2 b3 : Byte) : Word := b0 ++ b1 ++ b2 ++ b3

/-- `byte_k(v) = v[31-8k : 24-8k]` of a word, `k` in 0..3; `byte_0` is the most significant (spec section 6.2). -/
def wordByte (v : Word) (k : Nat) : Byte := v.extractLsb' (24 - 8 * k) 8

/-- `byte_k(v) = v[63-8k : 56-8k]` of a 64-bit value, `k` in 0..7 (spec section 6.2, rule R32). -/
def lenByte (v : BitVec 64) (k : Nat) : Byte := v.extractLsb' (56 - 8 * k) 8

/-- `len8(v)`: the 8 bytes of a 64-bit value, most significant first (rules R32, R92, R95). -/
def len8 (v : BitVec 64) : List Byte := (List.range 8).map (lenByte v)

/-- `zeros(k)`: `k` bytes 0x00 (rule R92). -/
def zeros (k : Nat) : List Byte := List.replicate k 0x00

/-- `H[i]` for `i` in 0..4 (rule R10). -/
def chainWord (c : Chain) (i : Nat) : Word :=
  match i with
  | 0 => c.h0
  | 1 => c.h1
  | 2 => c.h2
  | 3 => c.h3
  | _ => c.h4

/-- The 5-word state serialized as 20 bytes, most significant byte first within each word, words in index order: byte
`4i + k` is `byte_k(H[i])` (rules R33, R96). -/
def serialize (c : Chain) : List Byte := (List.range 20).map fun j => wordByte (chainWord c (j / 4)) (j % 4)

/-- `S[0] ‖ S[1] ‖ S[2] ‖ S[3] ‖ S[4]`: the packing of the digest port and of the transform's state ports (rules R20,
R54). -/
def packChain (c : Chain) : BitVec 160 := c.h0 ++ c.h1 ++ c.h2 ++ c.h3 ++ c.h4

/-- The five words of a 160-bit port, word 0 in bits 159:128 (rule R54). -/
def unpackChain (v : BitVec 160) : Chain where
  h0 := v.extractLsb' 128 32
  h1 := v.extractLsb' 96 32
  h2 := v.extractLsb' 64 32
  h3 := v.extractLsb' 32 32
  h4 := v.extractLsb' 0 32

/-- The 64 bytes of the transform's 512-bit block port, byte 0 in bits 511:504 (rule R54). -/
def unpackBlock (v : BitVec 512) : Block := Vector.ofFn fun p : Fin 64 => v.extractLsb' (504 - 8 * p.val) 8

/-- `block[0] ‖ block[1] ‖ … ‖ block[63]` on the 512-bit block port (rule R54). -/
def packBlock (B : Block) : BitVec 512 := B.toList.foldl (fun v b => v <<< 8 ||| b.setWidth 512) 0

end Sys2Proof.Machine
end

