-- ==== Sys2Proof/Machine/Transform.lean ====
section
/-! DEFINITION. The Block Transform, `TRANSFORM(S, B)` (spec 40_block_transform.md): a total pure function of a
five-word state and a 64-byte block. Its scratch (`W`, `a … e`, `temp`, `t`) is local to it (rules R21, R82). -/

namespace Sys2Proof.Machine

/-- `rotl32(x, n)` for `0 < n < 32` (rule R67). -/
def rotl32 (x : Word) (n : Nat) : Word := x <<< n ||| x >>> (32 - n)

/-- Schedule words 0 to 15: big-endian reads of each 4-byte group (rule R68). -/
def loadSchedule (B : Block) : List Word :=
  List.ofFn fun i : Fin 16 => be32 B[4 * i.val] B[4 * i.val + 1] B[4 * i.val + 2] B[4 * i.val + 3]

/-- `W[t]` from the words before it, `t` the number of words in `w`, `t >= 16` (rule R69). -/
def nextScheduleWord (w : List Word) : Word :=
  let t := w.length
  rotl32 (w.getD (t - 3) 0 ^^^ w.getD (t - 8) 0 ^^^ w.getD (t - 14) 0 ^^^ w.getD (t - 16) 0) 1

/-- `n` more schedule words, in increasing order of their index (rule R69). -/
def expandSchedule : Nat → List Word → List Word
  | 0, w => w
  | n + 1, w => expandSchedule n (w ++ [nextScheduleWord w])

/-- The 80 words of the message schedule (rules R21, R68, R69). -/
def schedule (B : Block) : List Word := expandSchedule 64 (loadSchedule B)

/-- The function of stage 0: `(b AND c) OR ((NOT b) AND d)` (rule R71). -/
def stageSelect (b c d : Word) : Word := b &&& c ||| ~~~b &&& d

/-- The function of stages 1 and 3: `b XOR c XOR d` (rules R72, R74). -/
def stageXor (b c d : Word) : Word := b ^^^ c ^^^ d

/-- The function of stage 2: `(b AND c) OR (b AND d) OR (c AND d)` (rule R73). -/
def stageMajority (b c d : Word) : Word := b &&& c ||| b &&& d ||| c &&& d

/-- `f_t(b, c, d)`: the function of the stage that round `t` falls in (rules R71 to R74). -/
def roundFunction (t : Nat) (b c d : Word) : Word :=
  if t < 20 then stageSelect b c d
  else if t < 40 then stageXor b c d
  else if t < 60 then stageMajority b c d
  else stageXor b c d

/-- `temp` of round `t` from the working variables `v = a … e` at its start and `w = W[t]`, every sum modulo 2^32
(rule R75). -/
def roundTemp (t : Nat) (w : Word) (v : Chain) : Word :=
  rotl32 v.h0 5 + roundFunction t v.h1 v.h2 v.h3 + v.h4 + roundConstant t + w

/-- Round `t`: the computation of `temp` and the simultaneous shift of the working variables (rules R75, R76). -/
def roundStep (t : Nat) (w : Word) (v : Chain) : Chain where
  h0 := roundTemp t w v
  h1 := v.h0
  h2 := rotl32 v.h1 30
  h3 := v.h2
  h4 := v.h3

/-- The rounds from round `t` on, one for each word of the list, in increasing order (rule R75). -/
def runRounds : Nat → List Word → Chain → Chain
  | _, [], v => v
  | t, w :: ws, v => runRounds (t + 1) ws (roundStep t w v)

/-- The add-back of the working variables into the input state, element-wise modulo 2^32 (rule R77). -/
def addBack (S v : Chain) : Chain where
  h0 := S.h0 + v.h0
  h1 := S.h1 + v.h1
  h2 := S.h2 + v.h2
  h3 := S.h3 + v.h3
  h4 := S.h4 + v.h4

/-- `TRANSFORM(S, B)` (rule R78): the schedule, the working variables loaded from `S` in index order (rule R70, log
entry 8), the 80 rounds, the add-back. -/
def transform (S : Chain) (B : Block) : Chain := addBack S (runRounds 0 (schedule B) S)

/-- The transform seen as a unit with packed ports: `state_out` from `state_in` and `block_in` (rule R54). -/
def transformUnit (stateIn : BitVec 160) (blockIn : BitVec 512) : BitVec 160 :=
  packChain (transform (unpackChain stateIn) (unpackBlock blockIn))

/-- The 16-word form of rule R84: before round `t >= 16`, slot `t mod 16` gets `W[t]`. -/
def ringStep (t : Nat) (ring : List Word) : List Word :=
  if t < 16 then ring
  else
    ring.set (t % 16)
      (rotl32
        (ring.getD ((t - 3) % 16) 0 ^^^ ring.getD ((t - 8) % 16) 0 ^^^ ring.getD ((t - 14) % 16) 0
          ^^^ ring.getD (t % 16) 0) 1)

/-- `n` rounds from round `t` on in the 16-word form, each schedule word computed just before its round (rules R83,
R84). -/
def runRingRounds : Nat → Nat → List Word → Chain → Chain
  | 0, _, _, v => v
  | n + 1, t, ring, v =>
    runRingRounds n (t + 1) (ringStep t ring) (roundStep t ((ringStep t ring).getD (t % 16) 0) v)

/-- The transform with 16 schedule words instead of 80 (rules R83, R84). -/
def ringTransform (S : Chain) (B : Block) : Chain := addBack S (runRingRounds 80 0 (loadSchedule B) S)

end Sys2Proof.Machine
end

