-- ==== Sys2Proof/Machine/Ops.lean ====
section
/-! DEFINITION. The named operations the commands share: reads and writes of the block buffer (rules R15, R37, R89),
the completed and the padded blocks (rules R89, R93, R94), answering and refusing a command (rules R114, R115), the
host's reset (rules R130, R131). -/

namespace Sys2Proof.Machine

/-- The canonical form of the buffer's contents: positions strictly rising and inside `buf[0..63]` (rule R30). An
unlisted position holds no specified byte, so no entry can repeat it. -/
abbrev Memory.wf (m : Memory) : Prop := m.Pairwise (fun x y => x.1 < y.1) ∧ ∀ x ∈ m, x.1 < 64

/-- The specified byte at a position, none where the byte is unspecified. -/
def Memory.read (m : Memory) (p : Nat) : Option Byte :=
  match m with
  | [] => none
  | (q, v) :: m => if q = p then some v else Memory.read m p

/-- `MemWrite(buf, p, 1, v)` in canonical form (spec section 6.3). -/
def Memory.write (m : Memory) (p : Nat) (v : Byte) : Memory :=
  match m with
  | [] => [(p, v)]
  | (q, u) :: m =>
    if p < q then (p, v) :: (q, u) :: m
    else if q = p then (p, v) :: m
    else (q, u) :: Memory.write m p v

/-- The byte that `buf[p]` holds: the specified one, else the free value of log entry 5 (rule R15). DESIGN CHOICE, log
entry 14: the free value is a function of `freeCount` and the position alone, so two cores (rule R25) with equal
`freeCount` hold equal unspecified bytes. -/
def State.bufByte (s : State) (p : Nat) : Byte :=
  match s.buf.read p with
  | some v => v
  | none => Config.freeByte (64 * s.freeCount + p)

/-- `MemRead(buf, p, n)`: the bytes `buf[p] … buf[p+n-1]`, lowest position first (spec section 6.3). -/
def memRead (s : State) (p n : Nat) : List Byte := (List.range n).map fun k => s.bufByte (p + k)

/-- The valid bytes `buf[0] … buf[buf_len - 1]` in arrival order (rule R15). -/
def State.validBytes (s : State) : List Byte := memRead s 0 s.bufLen.toNat

/-- The position an UPDATE stores its byte at: `buf_len`, the first free one (rule R89). -/
def State.storePosition (s : State) : Nat := s.bufLen.toNat

/-- UPDATE's store, `buf[buf_len] <- data` (rule R89). -/
def storeByte (data : Byte) (s : State) : State := { s with buf := s.buf.write s.storePosition data }

/-- The 64 bytes `buf[0..63]` as a block (rule R89). -/
def State.bufBlock (s : State) : Block := Vector.ofFn fun p : Fin 64 => s.bufByte p.val

/-- After the store at `buf_len`: at position 63 the block is complete, the transform runs and the buffer is empty
again, else `buf_len` increases by 1 (rule R89). -/
def advanceBuffer (s : State) : State :=
  if s.bufLen = 63 then { s with H := transform s.H s.bufBlock, bufLen := 0 }
  else { s with bufLen := s.bufLen + 1 }

/-- The single padded block when `buf_len <= 55`: `B1[p] = buf[p]` for `p < n`, `B1[n] = 0x80`, zeros to position 55,
`B1[56 + k] = byte_k(bitlen)` (rule R93). -/
def oneBlockPadding (s : State) : Block :=
  Vector.ofFn fun p : Fin 64 =>
    if p.val < s.bufLen.toNat then s.bufByte p.val
    else if p.val = s.bufLen.toNat then 0x80
    else if p.val < 56 then 0x00
    else lenByte s.bitlen (p.val - 56)

/-- The first of the two padded blocks when `buf_len >= 56`: no length field (rule R94). -/
def firstOfTwoPadding (s : State) : Block :=
  Vector.ofFn fun p : Fin 64 =>
    if p.val < s.bufLen.toNat then s.bufByte p.val
    else if p.val = s.bufLen.toNat then 0x80
    else 0x00

/-- The second of the two padded blocks: 56 zero bytes, then the length field (rule R94). -/
def secondOfTwoPadding (bitlen : BitVec 64) : Block :=
  Vector.ofFn fun p : Fin 64 => if p.val < 56 then 0x00 else lenByte bitlen (p.val - 56)

/-- `H` after FINALIZE's one or two transforms (rules R92 to R94). -/
def finalState (s : State) : Chain :=
  if s.bufLen.toNat ≤ 55 then transform s.H (oneBlockPadding s)
  else transform (transform s.H (firstOfTwoPadding s)) (secondOfTwoPadding s.bitlen)

/-- FINALIZE leaves every byte of `buf` unspecified: nothing listed, fresh free values (rule R97, log entry 6). -/
def forgetBuffer (s : State) : State := { s with buf := [], freeCount := s.freeCount + 1 }

/-- `respond OK`: the command was carried out (rule R52). -/
def accept (s : State) : Result := .next { s with rsp := some .ok }

/-- An error's entry, `raise`: the response code and no change of the architectural state; control goes nowhere, so
there is nothing to return from (rules R114, R115). -/
def refuse (r : Response) (s : State) : Result := .next { s with rsp := some r }

/-- The phase check of UPDATE and FINALIZE, made before the command has any effect: `InvalidState` in phase Finalized
(rules R91, R98, R111), else the effect `t`. -/
def unlessFinalized (s t : State) : Result := if s.phase = .finalized then refuse .invalidState s else accept t

/-- The host's reset, from any state: the reset state, with the rest of the host's inputs kept; the bytes of `buf` are
unspecified, so their free values are fresh ones (rules R24, R130, R131, log entry 7). -/
def hostReset (s : State) : State := { State.reset with input := s.input, freeCount := s.freeCount + 1 }

end Sys2Proof.Machine
end

