-- ==== Sys2Proof/Machine/Driver.lean ====
section
/-! DEFINITION. The meanings of the four rows of spec/opcode_table.json (spec 41_digest_driver.md). -/

namespace Sys2Proof.Machine

/-- `INIT` (rule R86): legal in every phase, always OK. The 64 bytes of `buf` are left as they are. -/
def execInit (s : State) : Result :=
  accept { s with H := hInit, bitlen := 0, bufLen := 0, lenOvf := false, phase := .empty }

/-- `UPDATE data` (rules R87 to R91). -/
def execUpdate (data : Byte) (s : State) : Result :=
  unlessFinalized s { advanceBuffer (storeByte data (countByte s)) with phase := .accumulating }

/-- `FINALIZE` (rules R92 to R98): the digest state, an empty buffer, phase Finalized; `bitlen` and `len_ovf` kept. -/
def execFinalize (s : State) : Result :=
  unlessFinalized s { forgetBuffer s with H := finalState s, bufLen := 0, phase := .finalized }

/-- The reserved encoding (rules R49, R112, R116): `InvalidCommand` in every phase, before any phase check. -/
def execReserved (s : State) : Result := refuse .invalidCommand s

end Sys2Proof.Machine
end

