-- ==== Sys2Proof/Machine/Step.lean ====
section
/-! DEFINITION. One step: the host's next input, taken to completion (rules R5, R6, R39, R131). -/

namespace Sys2Proof.Machine

/-- One step. A command at the head of the host's inputs is accepted and executed to completion; a reset puts the
machine into the reset state and abandons a command in progress (rule R131); with no input the core does nothing
(rule R6, log entry 2). -/
def step (s : State) : Host.Outcome State Fault Refusal :=
  match s.input with
  | [] => .next s
  | .command w :: rest => exec (decodeWord w) { s with input := rest }
  | .reset :: rest => .next (hostReset { s with input := rest })
  | .resetDuring _ :: rest => .next (hostReset { s with input := rest })

/-- `s` with the command word `w` presented next: its low `nbits` bits, the bits above zero (log entry 3). -/
def State.withFetchWord (s : State) (nbits w : Nat) : State :=
  { s with input := .command (BitVec.ofNat 10 (w % 2 ^ nbits)) :: s.input }

end Sys2Proof.Machine
end

