-- ==== Sys2Proof/Machine/Message.lean ====
section
/-! DEFINITION. Messages: the pseudo-commands as sequences of commands (rules R56, R57), what a sequence of commands
does (rule R39), and the functional statement of the digest, which uses the transform and nothing else of the driver
(rule R103). -/

namespace Sys2Proof.Machine

/-- `UPDATE_CHUNK b0 b1 …`: one UPDATE for each byte, in order; no command at all for no byte (rule R56). -/
def updateChunk (bytes : List Byte) : List Instr := bytes.map Instr.update

/-- `DIGEST b0 …`: INIT, the UPDATEs, FINALIZE (rule R57). -/
def digestCommands (bytes : List Byte) : List Instr := .init :: (updateChunk bytes ++ [.finalize])

/-- The host's inputs for a sequence of commands, each by its canonical word (rules R46, R55). -/
def commandInputs (is : List Instr) : List HostInput := is.map fun i => .command (encode i)

/-- The commands of a list, each completely before the next, with the response to each (rules R39, R46). None where a
command has no next state or no response. -/
def runCommands : List Instr → State → Option (State × List Response)
  | [], s => some (s, [])
  | i :: is, s =>
    match exec i s with
    | .next t =>
      match t.rsp, runCommands is t with
      | some r, some (u, rs) => some (u, r :: rs)
      | _, _ => none
    | _ => none

/-- The 64 bytes of a sequence from position `p` on. -/
def blockAt (bytes : List Byte) (p : Nat) : Block := Vector.ofFn fun k : Fin 64 => bytes.getD (p + k.val) 0

/-- The complete 64-byte blocks of a byte sequence, in order (rules R89, R103). -/
def blocksOf (bytes : List Byte) : List Block := (List.range (bytes.length / 64)).map fun j => blockAt bytes (64 * j)

/-- The bytes after the last complete block (rules R15, R105). -/
def leftover (bytes : List Byte) : List Byte := bytes.drop (64 * (bytes.length / 64))

/-- `S_(j+1) = TRANSFORM(S_j, B_j)`, from `S` over a list of blocks (rule R103). -/
def foldTransform (S : Chain) (Bs : List Block) : Chain := Bs.foldl transform S

/-- `z = (55 - L) mod 64`, taken in 0..63 (rule R103). -/
def padZeros (L : Nat) : Nat := (((55 : Int) - L) % 64).toNat

/-- `Pad(M) = M ++ [0x80] ++ zeros(z) ++ len8(8 * L)`, the bit length modulo 2^64 (rules R103, R104). -/
def padMessage (M : List Byte) : List Byte :=
  M ++ [0x80] ++ zeros (padZeros M.length) ++ len8 (BitVec.ofNat 64 (8 * M.length))

/-- `S_m`: the state the digest of `M` is the serialization of (rule R103). -/
def digestState (M : List Byte) : Chain := foldTransform hInit (blocksOf (padMessage M))

end Sys2Proof.Machine
end

