-- ==== Sys2Proof/Machine/Assembler.lean ====
section
/-! DEFINITION. The assembler of rules R55 to R57: lines of text, the lines' meanings as inputs of the host, and the
three-digit spelling of a command word. -/

namespace Sys2Proof.Machine

/-- A line's pieces: a run of characters without space, a single-quoted character, a double-quoted text. -/
inductive Token where
  | bare (text : List Char)
  | quoted (c : Char)
  | text (text : List Char)
  deriving DecidableEq, Repr

/-- What the lexer is inside of. -/
inductive LexMode where
  | gap
  | bare (soFar : List Char)
  | quote
  | quoteEnd (c : Char)
  | text (soFar : List Char)
  deriving DecidableEq, Repr

/-- Space and tab separate tokens (log entry 12). -/
def isGap (c : Char) : Bool := c == ' ' || c == '\t'

/-- A line's tokens; a `#` outside quotes starts a comment (rule R55). None for an unfinished quote. Characters are
tested by code point: 35 is `#`, 39 the single quote, 34 the double quote. DESIGN CHOICE, log entry 12: a closing quote
ends its token, so no gap is needed after it (`'a''b'` and `'a'0x62` are two operands); a bare token runs on to a gap or
a `#`, quotes included; nothing escapes a quote. -/
def lexLine : LexMode → List Char → Option (List Token)
  | .gap, [] => some []
  | .bare t, [] => some [.bare t]
  | .quote, [] => none
  | .quoteEnd _, [] => none
  | .text _, [] => none
  | .gap, c :: cs =>
    if c.toNat = 35 then some []
    else if isGap c then lexLine .gap cs
    else if c.toNat = 39 then lexLine .quote cs
    else if c.toNat = 34 then lexLine (.text []) cs
    else lexLine (.bare [c]) cs
  | .bare t, c :: cs =>
    if c.toNat = 35 then some [.bare t]
    else if isGap c then (lexLine .gap cs).map (.bare t :: ·)
    else lexLine (.bare (t ++ [c])) cs
  | .quote, c :: cs => lexLine (.quoteEnd c) cs
  | .quoteEnd q, c :: cs => if c.toNat = 39 then (lexLine .gap cs).map (.quoted q :: ·) else none
  | .text t, c :: cs =>
    if c.toNat = 34 then (lexLine .gap cs).map (.text t :: ·) else lexLine (.text (t ++ [c])) cs

/-- The value of a hexadecimal digit, either case (log entry 12). -/
def hexDigit (c : Char) : Option Nat :=
  if 48 ≤ c.toNat ∧ c.toNat ≤ 57 then some (c.toNat - 48)
  else if 65 ≤ c.toNat ∧ c.toNat ≤ 70 then some (c.toNat - 55)
  else if 97 ≤ c.toNat ∧ c.toNat ≤ 102 then some (c.toNat - 87)
  else none

/-- A byte operand: `0x` and two hexadecimal digits, or a quoted character (rule R55, log entry 12). -/
def parseByte : Token → Option ByteOperand
  | .quoted c => some (.chr c)
  | .bare ['0', 'x', hi, lo] =>
    match hexDigit hi, hexDigit lo with
    | some h, some l => some (.hex (16 * h + l))
    | _, _ => none
  | _ => none

/-- Every byte operand of a list, none if one is no byte. -/
def parseBytes : List Token → Option (List ByteOperand)
  | [] => some []
  | t :: ts =>
    match parseByte t, parseBytes ts with
    | some b, some bs => some (b :: bs)
    | _, _ => none

/-- The command a mnemonic stands for, with its operands (rules R55 to R57; their mixture is log entry 12). -/
def parseOperands (mnemonic : List Char) (ts : List Token) : Option SourceLine :=
  if mnemonic = ['I', 'N', 'I', 'T'] then (if ts = [] then some .init else none)
  else if mnemonic = ['U', 'P', 'D', 'A', 'T', 'E'] then
    match parseBytes ts with
    | some [b] => some (.update b)
    | _ => none
  else if mnemonic = ['F', 'I', 'N', 'A', 'L', 'I', 'Z', 'E'] then (if ts = [] then some .finalize else none)
  else if mnemonic = ['R', 'E', 'S', 'E', 'R', 'V', 'E', 'D'] then (if ts = [] then some .reserved else none)
  else if mnemonic = ['R', 'E', 'S', 'E', 'T'] then (if ts = [] then some .reset else none)
  else if mnemonic = ['U', 'P', 'D', 'A', 'T', 'E', '_', 'C', 'H', 'U', 'N', 'K'] then
    match ts with
    | [.text t] => some (.updateText t)
    | _ => (parseBytes ts).map .updateChunk
  else if mnemonic = ['D', 'I', 'G', 'E', 'S', 'T'] then (parseBytes ts).map .digest
  else none

/-- One line of text, none where it is no line of the assembler or an operand is no byte (rules R55 to R57). -/
def parseLine (line : List Char) : Option SourceLine :=
  match lexLine .gap line with
  | some [] => some .blank
  | some (.bare m :: ts) =>
    match parseOperands m ts with
    | some l => if l.wellFormed then some l else none
    | none => none
  | _ => none

/-- The byte a character stands for: its ASCII code (rule R55). -/
def charByte (c : Char) : Byte := BitVec.ofNat 8 c.toNat

/-- The byte an operand stands for (rule R55). -/
def operandByte : ByteOperand → Byte
  | .hex v => BitVec.ofNat 8 v
  | .chr c => charByte c

/-- What a line makes the host do (rules R55 to R57). -/
def expandLine : SourceLine → List HostInput
  | .blank => []
  | .init => commandInputs [.init]
  | .update b => commandInputs [.update (operandByte b)]
  | .finalize => commandInputs [.finalize]
  | .reserved => commandInputs [.reserved]
  | .reset => [.reset]
  | .updateChunk bs => commandInputs (updateChunk (bs.map operandByte))
  | .updateText cs => commandInputs (updateChunk (cs.map charByte))
  | .digest bs => commandInputs (digestCommands (bs.map operandByte))

/-- The inputs of a text of lines, in order, none if one line is wrong. -/
def assemble : List (List Char) → Option (List HostInput)
  | [] => some []
  | l :: ls =>
    match parseLine l, assemble ls with
    | some a, some is => some (expandLine a ++ is)
    | _, _ => none

/-- A digit 0 to 15 as an upper-case hexadecimal character. -/
def hexChar (d : Nat) : Char := if d < 10 then Char.ofNat (48 + d) else Char.ofNat (55 + d)

/-- The text of a command, its operand as `0x` and two hexadecimal digits (rule R55). -/
def lineText : Instr → List Char
  | .init => ['I', 'N', 'I', 'T']
  | .update d =>
    ['U', 'P', 'D', 'A', 'T', 'E', ' ', '0', 'x', hexChar (d.toNat / 16), hexChar (d.toNat % 16)]
  | .finalize => ['F', 'I', 'N', 'A', 'L', 'I', 'Z', 'E']
  | .reserved => ['R', 'E', 'S', 'E', 'R', 'V', 'E', 'D']

/-- A command word written as three hexadecimal digits (rule R55). -/
def wordHex (w : CommandWord) : List Char :=
  [hexChar (w.toNat / 256), hexChar (w.toNat / 16 % 16), hexChar (w.toNat % 16)]

end Sys2Proof.Machine
end

