-- ==== Sys2Proof/Machine/System.lean ====
section
/-! DEFINITION. A system of `N_INST` independent cores (rules R25, R44, decision D24): a list of states, of any length,
in which one core at a time takes a step. -/

namespace Sys2Proof.Machine

/-- The cores of a system; `N_INST` is the list's length, which stays open (rule R4). Whether the unspecified bytes of two
cores agree is log entry 14. -/
abbrev System := List State

/-- Core `k` takes one step over its own input stream; the others do not change (rule R44). A system without a core `k`
does not change. -/
def System.stepAt (k : Nat) (sys : System) : Host.Outcome System Fault Refusal :=
  match sys[k]? with
  | none => .next sys
  | some s =>
    match step s with
    | .next t => .next (sys.set k t)
    | .fault r => .fault r
    | .refused r => .refused r

end Sys2Proof.Machine
end

