-- ==== Sys2Proof/Machine/Ports.lean ====
section
/-! DEFINITION. The ports the host can sample (rules R18 to R20, R45, R46, R52, R53): functions of the state, so a read
has no effect (rule R38). -/

namespace Sys2Proof.Machine

/-- The phase's code on the status port: Empty `0b00`, Accumulating `0b01`, Finalized `0b10` (rules R16, R53). -/
def Phase.code : Phase → BitVec 2
  | .empty => 0b00
  | .accumulating => 0b01
  | .finalized => 0b10

/-- The response code `rsp[1:0]` (rule R52). -/
def Response.code : Response → BitVec 2
  | .ok => 0b00
  | .invalidState => 0b01
  | .invalidCommand => 0b10

/-- `status[1:0] = phase`, `status[2] = len_ovf` (rules R18, R53). -/
def State.status (s : State) : BitVec 3 := BitVec.ofBool s.lenOvf ++ s.phase.code

/-- `digest_valid`: 1 in phase Finalized, else 0 (rule R19). -/
def State.digestValid (s : State) : BitVec 1 := if s.phase = .finalized then 1 else 0

/-- The digest port: `H[0] ‖ … ‖ H[4]` in phase Finalized, else all zero (rule R20). -/
def State.digest (s : State) : BitVec 160 := if s.phase = .finalized then packChain s.H else 0

/-- Digest byte `j`, `j` in 0..19: `digest[159-8j : 152-8j]` (rules R20, R33). -/
def State.digestByte (s : State) (j : Nat) : Byte := s.digest.extractLsb' (152 - 8 * j) 8

/-- `rsp_valid`: a response has been produced since reset (rules R45, R46, log entry 4). -/
def State.rspValid (s : State) : Bool := s.rsp.isSome

/-- The code on the response port, where one stands (rules R45, R52). -/
def State.rspCode (s : State) : Option (BitVec 2) := s.rsp.map Response.code

/-- `cmd_valid`: the next step accepts a command (rule R46). DESIGN CHOICE, log entry 15: it reads 0 where a reset comes
next, also a reset asserted while a command is presented (rule R131 says only that the command is not accepted). -/
def State.cmdValid (s : State) : Bool :=
  match s.input with
  | .command _ :: _ => true
  | _ => false

/-- `cmd_ready` between two steps: no response is outstanding, so the core is ready (rule R46, log entry 1); so too where
a reset comes next, DESIGN CHOICE, log entry 15. -/
def State.cmdReady (_ : State) : Bool := true

end Sys2Proof.Machine
end

