-- ==== Sys2Proof/Safety.lean ====
section
/-! DEFINITION. The notions that claims are made in: which message a state stands for, the invariant of the core (rule
R23), which states a host cannot tell apart (rules R13, R15), and what a frame keeps. -/

namespace Sys2Proof.Machine

/-- The valid positions of the buffer hold specified bytes (rule R15). -/
def State.validListed (s : State) : Prop := ∀ p < s.bufLen.toNat, (s.buf.read p).isSome

/-- `s` is the state of a core that has absorbed the bytes of `M` since INIT or reset, and nothing else (rules R23, R95,
R97, R104). -/
def State.Absorbed (M : List Byte) (s : State) : Prop :=
  s.bitlen = BitVec.ofNat 64 (8 * M.length) ∧ s.lenOvf = decide (2 ^ 61 ≤ M.length) ∧
  match s.phase with
  | .empty => M = [] ∧ s.H = hInit ∧ s.bufLen = 0
  | .accumulating => M ≠ [] ∧ s.H = foldTransform hInit (blocksOf M) ∧ s.validBytes = leftover M
  | .finalized => s.H = digestState M ∧ s.bufLen = 0

/-- The invariant between commands: the buffer's contents are in canonical form, the valid bytes are specified, and the
state is that of some message (rule R23). -/
def State.Inv (s : State) : Prop := s.buf.wf ∧ s.validListed ∧ ∃ M, s.Absorbed M

/-- Rule R23, its items 1 to 7 in order. -/
structure State.Facts (s : State) : Prop where
  bufLen_le : s.bufLen.toNat ≤ 63
  bitlen_low_bits : s.bitlen.extractLsb' 0 3 = 0
  bufLen_eq : s.phase ≠ .finalized →
    s.bufLen = s.bitlen.extractLsb' 3 6 ∧ s.bufLen.toNat = s.bitlen.toNat / 8 % 64
  of_empty : s.phase = .empty → s.H = hInit ∧ s.bitlen = 0 ∧ s.bufLen = 0 ∧ s.lenOvf = false
  of_accumulating : s.phase = .accumulating → s.lenOvf = false → 8 ≤ s.bitlen.toNat
    ∧ ∃ M : List Byte, M.length = s.bitlen.toNat / 8 ∧ (blocksOf M).length = s.bitlen.toNat / 512
      ∧ s.H = foldTransform hInit (blocksOf M) ∧ s.validBytes = leftover M
  of_finalized : s.phase = .finalized → s.bufLen = 0
    ∧ ∃ M : List Byte, s.bitlen = BitVec.ofNat 64 (8 * M.length) ∧ s.H = digestState M
  code_legal : s.phase.code ≠ 0b11

/-- Two states that differ at most in bytes of `buf` at positions `>= buf_len` and in the model's own counter: what
rule R15 says no rule reads. -/
structure State.SameButStale (s t : State) : Prop where
  H : s.H = t.H
  bitlen : s.bitlen = t.bitlen
  bufLen : s.bufLen = t.bufLen
  phase : s.phase = t.phase
  lenOvf : s.lenOvf = t.lenOvf
  rsp : s.rsp = t.rsp
  input : s.input = t.input
  validBytes : s.validBytes = t.validBytes

/-- What the host can see of a core: its output ports (rule R45). -/
def State.outputs (s : State) : BitVec 3 × BitVec 1 × BitVec 160 × Option (BitVec 2) :=
  (s.status, s.digestValid, s.digest, s.rspCode)

/-- A response that refuses its command (rule R110). -/
def Response.isError : Response → Bool
  | .ok => false
  | .invalidState => true
  | .invalidCommand => true

end Sys2Proof.Machine
end

