-- ==== Sys2Proof/Certificates/Slice0/Obligations.lean ====
section
/-! DEFINITION. The statements for the provers. Each docstring names the rule of spec/ it formalises; `spec` clauses
that are the model's own choice name their log entry. -/

open Sys2Proof Sys2Proof.Machine

/-! ### Encoding (30_encoding.md) -/

/-- R48, R50, R55: words of the spec's encoding, written out, and the instructions they stand for. -/
def Obligations.DecodeReadsSpecWords : Prop :=
  decodeWord 0b0000000000 = .init ∧ decodeWord 0b0101100001 = .update 0x61 ∧ decodeWord 0b1000000000 = .finalize
    ∧ decodeWord 0b1100000000 = .reserved ∧ decodeWord 0b0011111111 = .init ∧ decodeWord 0b1010100101 = .finalize
    ∧ decodeWord 0b1111111111 = .reserved ∧ decodeWord 0b0111111111 = .update 0xFF

/-- R48: the opcode map. Each word is covered by exactly one row of masks and matches, the row of the instruction that
the decoder reads, and by `op` the instruction is INIT, UPDATE with the data byte, FINALIZE or the reserved one. -/
def Obligations.OpcodeMapDecodesEveryWord : Prop :=
  (∀ w : CommandWord, (opcodeTable.filter fun r => r.covers w).map OpcodeRow.mnemonic = [(decodeWord w).mnemonic])
    ∧ ∀ d : Byte, decodeWord (0b00#2 ++ d) = .init ∧ decodeWord (0b01#2 ++ d) = .update d
        ∧ decodeWord (0b10#2 ++ d) = .finalize ∧ decodeWord (0b11#2 ++ d) = .reserved

/-- R50: in INIT, FINALIZE and the reserved encoding all 256 values of `cmd[7:0]` give the same behaviour, in every
state, and the canonical spelling has `data = 0x00`. -/
def Obligations.IgnoredDataHasNoEffect : Prop :=
  (∀ (d : Byte) (s : State), exec (decodeWord (0b00#2 ++ d)) s = exec (decodeWord (0b00#2 ++ 0x00#8)) s
      ∧ exec (decodeWord (0b10#2 ++ d)) s = exec (decodeWord (0b10#2 ++ 0x00#8)) s
      ∧ exec (decodeWord (0b11#2 ++ d)) s = exec (decodeWord (0b11#2 ++ 0x00#8)) s)
    ∧ encode .init = 0x000 ∧ encode .finalize = 0x200 ∧ encode .reserved = 0x300

/-- R48, R50: decode and encode agree. The decoder gives back every instruction from its word, also as the table's
number of at least 10 bits, and the words it reads as an instruction are those with that instruction's `op`, and for
UPDATE its data byte. -/
def Obligations.DecodeOfEncode : Prop :=
  ∀ i : Instr, decodeWord (encode i) = i
    ∧ (∀ nbits, 10 ≤ nbits → decodeTableWord nbits (encode i).toNat = some i)
    ∧ ∀ w : CommandWord, decodeWord w = i ↔
        opField w = opField (encode i) ∧ ∀ d, i = .update d → dataField w = d

/-- R47: what does not fit the 10 bits of the command port is no command word, and is rejected by name (the name is
the model's, log entry 10). -/
def Obligations.WiderWordsAreRejected : Prop :=
  ∀ w : Nat, (2 ^ 10 ≤ w → decode w = .error (.notTenBits w))
    ∧ (w < 2 ^ 10 → decode w = .ok (decodeWord (BitVec.ofNat 10 w)))

/-- R55: the text of a command assembles to the command's word (spacing and digit case are log entry 12), and the three
digits of the examples. -/
def Obligations.LineTextAssembles : Prop :=
  (∀ i : Instr, assemble [lineText i] = some [.command (encode i)])
    ∧ wordHex (encode .init) = ['0', '0', '0'] ∧ wordHex (encode (.update 0x61)) = ['1', '6', '1']
    ∧ wordHex (encode .finalize) = ['2', '0', '0'] ∧ wordHex (encode .reserved) = ['3', '0', '0']

/-- R56: `UPDATE_CHUNK` expands to one UPDATE for each byte, in order; with no byte it is no command, in any state. -/
def Obligations.UpdateChunkExpands : Prop :=
  (∀ bs : List ByteOperand, expandLine (.updateChunk bs) = bs.map fun b => .command (encode (.update (operandByte b))))
    ∧ (∀ cs : List Char, expandLine (.updateText cs) = cs.map fun c => .command (encode (.update (BitVec.ofNat 8 c.toNat))))
    ∧ ∀ s : State, runCommands (updateChunk []) s = some (s, [])

/-! ### Reset and steps (R24, R39, R46, R130, R131) -/

/-- R24: the values after reset (no byte of `buf` is specified) and what the ports read, and INIT leads to the same values from every state. -/
def Obligations.ResetValues : Prop :=
  State.reset.H = ⟨0x67452301, 0xEFCDAB89, 0x98BADCFE, 0x10325476, 0xC3D2E1F0⟩ ∧ State.reset.bitlen = 0
    ∧ State.reset.bufLen = 0 ∧ State.reset.lenOvf = false ∧ State.reset.phase = .empty
    ∧ (∀ p, State.reset.buf.read p = none) ∧ State.reset.status = 0b000 ∧ State.reset.digestValid = 0 ∧ State.reset.digest = 0
    ∧ ∀ s : State, ∃ t, exec .init s = .next t ∧ t.H = State.reset.H ∧ t.bitlen = State.reset.bitlen
        ∧ t.bufLen = State.reset.bufLen ∧ t.lenOvf = State.reset.lenOvf ∧ t.phase = State.reset.phase

/-- R131 (with R130): the host's reset leads every state to the reset state, whether a command was in progress or not,
and no response is produced for it. The model's choices: a reset during a command as the one input `resetDuring` (log
entry 11), and `t.input = rest`, the host's further inputs are kept (log entries 2 and 7). -/
def Obligations.HostResetFromEveryState : Prop :=
  ∀ (s : State) (rest : List HostInput), (s.input = .reset :: rest ∨ ∃ w, s.input = .resetDuring w :: rest) →
    ∃ t, step s = .next t ∧ t.H = State.reset.H ∧ t.bitlen = 0 ∧ t.bufLen = 0 ∧ t.lenOvf = false ∧ t.phase = .empty
      ∧ t.rsp = none ∧ t.input = rest ∧ t.status = 0b000 ∧ t.digestValid = 0 ∧ t.digest = 0

/-- R46, R48: a step accepts the command presented next and runs the instruction its word decodes to, on the state
without that input (the inputs as a list are log entry 2). The second and third clauses are the model's choice, log
entry 3: `withFetchWord` presents the low `nbits` bits of the host's number, of these the low 10 of the command port;
so for the word of every instruction. -/
def Obligations.StepRunsTheDecodedCommand : Prop :=
  (∀ (s : State) (w : CommandWord) (rest : List HostInput), s.input = .command w :: rest →
      step s = exec (decodeWord w) { s with input := rest })
    ∧ (∀ (s : State) (nbits w : Nat), step (s.withFetchWord nbits w) = exec (decodeWord (BitVec.ofNat 10 (w % 2 ^ nbits))) s)
    ∧ ∀ (s : State) (i : Instr), step (s.withFetchWord 16 (encode i).toNat) = exec i s

/-- R6: the core does nothing between commands (a step without an input is the model's form, log entry 2). -/
def Obligations.StepWithoutInputDoesNothing : Prop :=
  ∀ s : State, s.input = [] → step s = .next s

/-- R79, R110: no state stops the machine; every command is answered, with a response. -/
def Obligations.NothingStopsTheCore : Prop :=
  (∀ s : State, ∃ t, step s = .next t) ∧ ∀ (i : Instr) (s : State), ∃ t r, exec i s = .next t ∧ t.rsp = some r

/-- R39, R46: the state after a sequence of commands is the fold of the steps over it; there is one response for each
command, in order, and the inputs that follow are not touched. -/
def Obligations.CommandsRunInOrder : Prop :=
  ∀ (is : List Instr) (s : State) (rest : List HostInput), s.input = commandInputs is ++ rest →
    ∃ t rs, runCommands is { s with input := rest } = some (t, rs) ∧ rs.length = is.length ∧ t.input = rest
      ∧ Host.Core.run core is.length s = .next t

/-! ### INIT (R86) -/

/-- R86: INIT in every state: what it writes, and that it leaves everything else, every byte of `buf` included. The
values are those after reset and the digest port returns to zero; INIT in Empty changes nothing, in a state that meets
the invariant; and INIT is the only command that leaves phase Finalized. -/
def Obligations.InitResult : Prop :=
  (∀ s : State, ∃ t, exec .init s = .next t
    ∧ t = { s with
        H := ⟨0x67452301, 0xEFCDAB89, 0x98BADCFE, 0x10325476, 0xC3D2E1F0⟩, bitlen := 0, bufLen := 0, lenOvf := false
        phase := .empty, rsp := some .ok }
    ∧ (∀ p, t.bufByte p = s.bufByte p) ∧ t.digest = 0 ∧ t.digestValid = 0
    ∧ (t.H = State.reset.H ∧ t.bitlen = State.reset.bitlen ∧ t.bufLen = State.reset.bufLen
        ∧ t.lenOvf = State.reset.lenOvf ∧ t.phase = State.reset.phase)
    ∧ (s.Inv → s.phase = .empty → t = { s with rsp := some .ok }))
  ∧ ∀ (i : Instr) (s t : State), s.phase = .finalized → exec i s = .next t → t.phase ≠ .finalized → i = .init

/-! ### UPDATE (R87 to R91) -/

/-- R87, R88, R89, R90: UPDATE in every state. Finalized: `InvalidState` and nothing else. Otherwise one byte of `buf`
is written and every other is as before, 8 is added to `bitlen`, `len_ovf` is set by a carry, the phase is
Accumulating, and at position 63 the block is complete: the transform runs and the buffer is empty. -/
def Obligations.UpdateResult : Prop :=
  ∀ (s : State) (d : Byte),
    (s.phase = .finalized → exec (.update d) s = .next { s with rsp := some .invalidState })
    ∧ (s.phase ≠ .finalized → ∃ t, exec (.update d) s = .next t
        ∧ (∀ p, t.bufByte p = if p = s.storePosition then d else s.bufByte p)
        ∧ t.bitlen = s.bitlen + 8 ∧ t.lenOvf = (s.lenOvf || decide (2 ^ 64 ≤ s.bitlen.toNat + 8))
        ∧ t.phase = .accumulating ∧ t.rsp = some .ok ∧ t.input = s.input ∧ t.freeCount = s.freeCount
        ∧ (s.storePosition = 63 → t.bufLen = 0
            ∧ ∃ B : Block, (∀ p : Fin 64, B[p] = if p = 63 then d else s.bufByte p) ∧ t.H = transform s.H B)
        ∧ (s.storePosition ≠ 63 → t.bufLen.toNat = s.bufLen.toNat + 1 ∧ t.H = s.H))

/-- R34: in the state of a core that has absorbed `n` bytes, the next byte, message byte `n`, is stored at
`buf[n mod 64]`, and the core has then absorbed `n + 1` bytes. -/
def Obligations.MessageByteIsStoredInOrder : Prop :=
  ∀ (M : List Byte) (s : State) (d : Byte), s.Absorbed M → s.phase ≠ .finalized →
    ∃ t, exec (.update d) s = .next t ∧ t.bufByte (M.length % 64) = d
      ∧ (∀ p, p ≠ M.length % 64 → t.bufByte p = s.bufByte p) ∧ t.Absorbed (M ++ [d])

/-- R91: UPDATE in phase Finalized changes nothing but the response, and the digest stays on the port. -/
def Obligations.UpdateRefusedWhenFinalized : Prop :=
  ∀ (s : State) (d : Byte), s.phase = .finalized →
    ∃ t, exec (.update d) s = .next t ∧ t = { s with rsp := some .invalidState } ∧ t.digest = s.digest
      ∧ t.digest = s.H.h0 ++ s.H.h1 ++ s.H.h2 ++ s.H.h3 ++ s.H.h4

/-- R105: the UPDATEs of a chunk reach what DOC's `update(bytes)` reaches: every complete block of the buffered bytes
followed by the chunk is transformed, in order, and the rest stays buffered. In phase Finalized each byte is refused. -/
def Obligations.UpdateChunkMatchesSoftwareUpdate : Prop :=
  ∀ (bytes : List Byte) (s : State),
    (s.phase ≠ .finalized → ∃ t, runCommands (updateChunk bytes) s = some (t, List.replicate bytes.length .ok)
        ∧ t.H = foldTransform s.H (blocksOf (s.validBytes ++ bytes)) ∧ t.validBytes = leftover (s.validBytes ++ bytes)
        ∧ t.bufLen.toNat = (s.bufLen.toNat + bytes.length) % 64
        ∧ t.bitlen = s.bitlen + BitVec.ofNat 64 (8 * bytes.length) ∧ (bytes ≠ [] → t.phase = .accumulating)
        ∧ (bytes = [] → t = s))
    ∧ (s.phase = .finalized → ∃ t, runCommands (updateChunk bytes) s = some (t, List.replicate bytes.length .invalidState)
        ∧ { t with rsp := s.rsp } = s)

/-- R101: the digest does not depend on how the message is cut into chunks: the commands of the chunks one after the
other do in every state what the commands of the whole message do. -/
def Obligations.ChunkingInvariance : Prop :=
  ∀ (chunks : List (List Byte)) (M : List Byte) (s : State), chunks.flatten = M →
    runCommands (.init :: ((chunks.map updateChunk).flatten ++ [.finalize])) s = runCommands (digestCommands M) s

/-! ### FINALIZE (R92 to R98) -/

/-- R92, R97: FINALIZE in every state. Finalized: `InvalidState` and nothing else. Otherwise `H` is transformed over one
padded block when `buf_len <= 55` and over two when `buf_len >= 56`, the blocks as the byte sequences of the
pseudocode; `buf_len` is 0, the phase Finalized, and `bitlen`, `len_ovf` and the inputs are as before (no byte of `buf`
is specified afterwards, log entry 6). -/
def Obligations.FinalizeResult : Prop :=
  ∀ s : State,
    (s.phase = .finalized → exec .finalize s = .next { s with rsp := some .invalidState })
    ∧ (s.phase ≠ .finalized → ∃ t, exec .finalize s = .next t ∧ t.bufLen = 0 ∧ t.phase = .finalized
        ∧ t.bitlen = s.bitlen ∧ t.lenOvf = s.lenOvf ∧ t.rsp = some .ok ∧ t.input = s.input
        ∧ (∀ p, t.buf.read p = none)
        ∧ (s.bufLen.toNat ≤ 55 → ∃ B1 : Block,
            B1.toList = memRead s 0 s.bufLen.toNat ++ [0x80] ++ zeros (55 - s.bufLen.toNat) ++ len8 s.bitlen
              ∧ t.H = transform s.H B1)
        ∧ (56 ≤ s.bufLen.toNat → ∃ B1 B2 : Block,
            B1.toList = memRead s 0 s.bufLen.toNat ++ [0x80] ++ zeros (63 - s.bufLen.toNat)
              ∧ B2.toList = zeros 56 ++ len8 s.bitlen ∧ t.H = transform (transform s.H B1) B2))

/-- R93: the padded block position by position, when `buf_len <= 55`, and the one transform. -/
def Obligations.OnePaddingBlock : Prop :=
  ∀ s : State, s.phase ≠ .finalized → s.bufLen.toNat ≤ 55 →
    ∃ t, ∃ B1 : Block, exec .finalize s = .next t ∧ t.H = transform s.H B1
      ∧ (∀ p : Fin 64, p.val < s.bufLen.toNat → B1[p] = s.bufByte p)
      ∧ (∀ p : Fin 64, p.val = s.bufLen.toNat → B1[p] = 0x80)
      ∧ (∀ p : Fin 64, s.bufLen.toNat < p.val → p.val ≤ 55 → B1[p] = 0x00)
      ∧ ∀ k : Fin 8, B1[56 + k.val] = s.bitlen.extractLsb' (56 - 8 * k.val) 8

/-- R94: the two padded blocks position by position, when `buf_len >= 56`, and the two transforms. -/
def Obligations.TwoPaddingBlocks : Prop :=
  ∀ s : State, s.phase ≠ .finalized → 56 ≤ s.bufLen.toNat →
    ∃ t, ∃ B1 B2 : Block, exec .finalize s = .next t ∧ t.H = transform (transform s.H B1) B2
      ∧ (∀ p : Fin 64, p.val < s.bufLen.toNat → B1[p] = s.bufByte p)
      ∧ (∀ p : Fin 64, p.val = s.bufLen.toNat → B1[p] = 0x80)
      ∧ (∀ p : Fin 64, s.bufLen.toNat < p.val → B1[p] = 0x00)
      ∧ (∀ p : Fin 64, p.val ≤ 55 → B2[p] = 0x00)
      ∧ ∀ k : Fin 8, B2[56 + k.val] = s.bitlen.extractLsb' (56 - 8 * k.val) 8

/-- R32: the length field read through the schedule: in the last padded block `W[14]` is the high word of `bitlen` and
`W[15]` the low one, and its bytes are `byte_k(bitlen)`. -/
def Obligations.LengthFieldIsBigEndian : Prop :=
  ∀ s : State, ∀ B : Block,
    (s.bufLen.toNat ≤ 55 ∧ B = oneBlockPadding s ∨ 56 ≤ s.bufLen.toNat ∧ B = secondOfTwoPadding s.bitlen) →
    (∀ k : Fin 8, B[56 + k.val] = s.bitlen.extractLsb' (56 - 8 * k.val) 8)
      ∧ (schedule B).getD 14 0 = s.bitlen.extractLsb' 32 32 ∧ (schedule B).getD 15 0 = s.bitlen.extractLsb' 0 32

/-- R98: FINALIZE in phase Finalized changes nothing but the response; a second FINALIZE after a first leaves the digest
of the first. -/
def Obligations.SecondFinalizeIsRefused : Prop :=
  (∀ s : State, s.phase = .finalized → exec .finalize s = .next { s with rsp := some .invalidState })
    ∧ ∀ s t : State, s.phase ≠ .finalized → exec .finalize s = .next t →
        ∃ u, exec .finalize t = .next u ∧ u = { t with rsp := some .invalidState } ∧ u.digest = t.digest

/-! ### The reserved encoding, errors, flags (R17, R49, R85, R110 to R116) -/

/-- R49, R112: every word of the reserved encoding, whatever its data bits, in every state and phase answers
`InvalidCommand` and changes no architectural state. -/
def Obligations.ReservedResult : Prop :=
  ∀ s : State, exec .reserved s = .next { s with rsp := some .invalidCommand }
    ∧ ∀ d : Byte, exec (decodeWord (0b11#2 ++ d)) s = .next { s with rsp := some .invalidCommand }

/-- R85: the complete transition table: the phase after the command and the response, for every phase and command; and
reset leads to Empty from anywhere. -/
def Obligations.TransitionTable : Prop :=
  ∀ s : State,
    (∃ t, exec .init s = .next t ∧ t.phase = .empty ∧ t.rsp = some .ok)
    ∧ (∀ d, ∃ t, exec (.update d) s = .next t
        ∧ (t.phase, t.rsp) = match s.phase with
            | .empty => (.accumulating, some .ok)
            | .accumulating => (.accumulating, some .ok)
            | .finalized => (.finalized, some .invalidState))
    ∧ (∃ t, exec .finalize s = .next t
        ∧ (t.phase, t.rsp) = match s.phase with
            | .empty => (.finalized, some .ok)
            | .accumulating => (.finalized, some .ok)
            | .finalized => (.finalized, some .invalidState))
    ∧ (∃ t, exec .reserved s = .next t ∧ t.phase = s.phase ∧ t.rsp = some .invalidCommand)
    ∧ (hostReset s).phase = .empty

/-- R114: a command answered with an error code changes nothing but the response, its ports are as before, and the next
command is executed as if the refused one had never been presented. -/
def Obligations.RefusedCommandChangesNothing : Prop :=
  ∀ (i : Instr) (s t : State) (r : Response), exec i s = .next t → t.rsp = some r → r.isError = true →
    t = { s with rsp := some r } ∧ t.status = s.status ∧ t.digestValid = s.digestValid ∧ t.digest = s.digest
      ∧ ∀ j, exec j t = exec j s

/-- R110, R111, R112: the complete list of the conditions: `InvalidState` exactly for UPDATE and FINALIZE in phase
Finalized, `InvalidCommand` exactly for the reserved encoding, in every phase; their codes; and `len_ovf` goes from 0 to
1 exactly by an accepted UPDATE whose addition carries. -/
def Obligations.ErrorConditions : Prop :=
  (∀ (i : Instr) (s : State), ∃ t r, exec i s = .next t ∧ t.rsp = some r
      ∧ (r = .invalidState ↔ s.phase = .finalized ∧ (i = .finalize ∨ ∃ d, i = .update d))
      ∧ (r = .invalidCommand ↔ i = .reserved)
      ∧ (s.lenOvf = false ∧ t.lenOvf = true ↔
          s.lenOvf = false ∧ s.phase ≠ .finalized ∧ (∃ d, i = .update d) ∧ 2 ^ 64 ≤ s.bitlen.toNat + 8))
    ∧ Response.ok.code = 0b00 ∧ Response.invalidState.code = 0b01 ∧ Response.invalidCommand.code = 0b10

/-- R17: `len_ovf` is set by an UPDATE whose addition carries, stays 1 through later UPDATE, FINALIZE and refused
commands, is cleared only by INIT and reset, and changes no computation: a command does the same whatever its value. -/
def Obligations.LengthOverflowFlagIsSticky : Prop :=
  (∀ (i : Instr) (s t : State), exec i s = .next t → i ≠ .init → s.lenOvf = true → t.lenOvf = true)
    ∧ (∀ s t : State, exec .init s = .next t → t.lenOvf = false) ∧ (∀ s : State, (hostReset s).lenOvf = false)
    ∧ (∀ (d : Byte) (s : State), s.phase ≠ .finalized → 2 ^ 64 ≤ s.bitlen.toNat + 8 →
        ∃ t, exec (.update d) s = .next t ∧ t.lenOvf = true)
    ∧ ∀ (i : Instr) (s t : State) (b : Bool), exec i s = .next t →
        ∃ t', exec i { s with lenOvf := b } = .next t' ∧ { t' with lenOvf := t.lenOvf } = t

/-- R88, R14: the writers of `bitlen`: an accepted UPDATE adds 8 modulo 2^64, INIT clears it, and FINALIZE, a refused
command and the transform leave it alone. -/
def Obligations.WritersOfBitlen : Prop :=
  ∀ (i : Instr) (s : State), ∃ t, exec i s = .next t
    ∧ t.bitlen = match i with
        | .init => 0
        | .update _ => if s.phase = .finalized then s.bitlen else s.bitlen + 8
        | .finalize => s.bitlen
        | .reserved => s.bitlen

/-- R104: the UPDATE that delivers byte number 2^61 of a message wraps `bitlen` to 0 and sets `len_ovf`, is answered OK
and absorbs its byte; every earlier UPDATE of the message leaves the flag 0. -/
def Obligations.CounterWrapsAtByte2Pow61 : Prop :=
  ∀ (M : List Byte) (s : State) (d : Byte), s.Absorbed M → s.phase ≠ .finalized →
    ∃ t, exec (.update d) s = .next t ∧ t.rsp = some .ok ∧ t.Absorbed (M ++ [d])
      ∧ (M.length + 1 < 2 ^ 61 → t.lenOvf = false ∧ t.bitlen.toNat = 8 * (M.length + 1))
      ∧ (M.length + 1 = 2 ^ 61 → t.bitlen = 0 ∧ s.lenOvf = false ∧ t.lenOvf = true)

/-! ### The state and the ports (10_state.md, 20_memory.md) -/

/-- R12: the writers of `H`, for every command in every state: INIT loads `H_INIT`; an accepted UPDATE at `buf_len` 63
transforms `H` over the completed block, and no other UPDATE writes it; an accepted FINALIZE transforms it over its one
or two padded blocks; a refused command leaves it. Reset loads `H_INIT`, from every state. -/
def Obligations.WritersOfRunningState : Prop :=
  (∀ (i : Instr) (s : State), ∃ t, exec i s = .next t
    ∧ t.H = match i with
        | .init => hInit
        | .update d =>
          if s.phase ≠ .finalized ∧ s.bufLen = 63 then transform s.H (storeByte d (countByte s)).bufBlock else s.H
        | .finalize =>
          if s.phase = .finalized then s.H
          else if s.bufLen.toNat ≤ 55 then transform s.H (oneBlockPadding s)
          else transform (transform s.H (firstOfTwoPadding s)) (secondOfTwoPadding s.bitlen)
        | .reserved => s.H)
    ∧ ∀ s : State, (hostReset s).H = hInit

/-- R13: in phase Empty or Accumulating the host cannot read `H`: the output ports do not depend on it, and the digest
port is zero; in phase Finalized the digest port is `H`, word by word. -/
def Obligations.RunningStateIsHidden : Prop :=
  ∀ s : State, (∀ H : Chain, s.phase ≠ .finalized → State.outputs { s with H := H } = s.outputs ∧ s.digest = 0)
    ∧ (s.phase = .finalized → s.digest = s.H.h0 ++ s.H.h1 ++ s.H.h2 ++ s.H.h3 ++ s.H.h4)

/-- R16, R18, R19, R53: the status and `digest_valid` ports. -/
def Obligations.StatusPorts : Prop :=
  ∀ s : State,
    s.status.extractLsb' 0 2 = (match s.phase with
      | .empty => 0b00
      | .accumulating => 0b01
      | .finalized => 0b10)
    ∧ s.status.getLsbD 2 = s.lenOvf ∧ s.digestValid = (match s.phase with
      | .empty => 0
      | .accumulating => 0
      | .finalized => 1)

/-- R20, R33: the digest port byte by byte: in phase Finalized byte `4i + k`, in bits `159-8j : 152-8j`, is `byte_k(H[i])`;
in the other phases the port is all zero. -/
def Obligations.DigestPortBytes : Prop :=
  ∀ s : State,
    (s.phase = .finalized → ∀ (i : Fin 5) (k : Fin 4),
        s.digestByte (4 * i.val + k.val) = (chainWord s.H i.val).extractLsb' (24 - 8 * k.val) 8)
    ∧ (s.phase = .finalized → (List.range 20).map s.digestByte = serialize s.H)
    ∧ (s.phase ≠ .finalized → s.digest = 0)

/-- R20, R96: the digest is immutable once produced: no sequence of commands without INIT changes the port, and every
one of the commands is refused. -/
def Obligations.DigestIsImmutable : Prop :=
  ∀ (is : List Instr) (s : State), s.phase = .finalized → .init ∉ is →
    ∃ t rs, runCommands is s = some (t, rs) ∧ t.digest = s.digest ∧ t.digestValid = 1
      ∧ rs.length = is.length ∧ ∀ r ∈ rs, r.isError = true

/-- R35: the mixed-width views are consistent. The bytes of schedule word `i` are the block's bytes `4i` to `4i + 3`, in
order; bytes 56 to 63 of the last padded block, read as one big-endian number, are `bitlen`; the 20 bytes of the digest
port, read as five big-endian words, are `H[0..4]`, and so are the 20 bytes of `serialize`. -/
def Obligations.MixedWidthViewsAgree : Prop :=
  (∀ (B : Block) (i : Fin 16), (List.range 4).map (wordByte ((schedule B).getD i.val 0))
      = [B[4 * i.val], B[4 * i.val + 1], B[4 * i.val + 2], B[4 * i.val + 3]])
    ∧ (∀ (s : State) (B : Block),
        (s.bufLen.toNat ≤ 55 ∧ B = oneBlockPadding s ∨ 56 ≤ s.bufLen.toNat ∧ B = secondOfTwoPadding s.bitlen) →
        (List.ofFn fun k : Fin 8 => B[56 + k.val]).foldl (fun n b => 256 * n + b.toNat) 0 = s.bitlen.toNat)
    ∧ (∀ s : State, s.phase = .finalized → ∀ i : Fin 5,
        be32 (s.digestByte (4 * i.val)) (s.digestByte (4 * i.val + 1)) (s.digestByte (4 * i.val + 2))
          (s.digestByte (4 * i.val + 3)) = chainWord s.H i.val)
    ∧ (∀ b0 b1 b2 b3 : Byte, (List.range 4).map (wordByte (be32 b0 b1 b2 b3)) = [b0, b1, b2, b3])
    ∧ (∀ v : BitVec 64, (len8 v).foldl (fun n b => 256 * n + b.toNat) 0 = v.toNat)
    ∧ ∀ c : Chain, ∀ i : Fin 5,
        be32 ((serialize c).getD (4 * i.val) 0) ((serialize c).getD (4 * i.val + 1) 0)
          ((serialize c).getD (4 * i.val + 2) 0) ((serialize c).getD (4 * i.val + 3) 0) = chainWord c i.val

/-- R15: no rule reads a byte of `buf` at a position `>= buf_len` before writing it: two states that differ at most in
such bytes take steps to two states that differ at most in such bytes, and their ports agree throughout. -/
def Obligations.StaleBytesAreNeverRead : Prop :=
  ∀ s t : State, s.SameButStale t →
    s.outputs = t.outputs ∧ ∃ s' t', step s = .next s' ∧ step t = .next t' ∧ s'.SameButStale t' ∧ s'.outputs = t'.outputs

/-- R25, R44: the cores of a system are independent: a step of one changes no other, and steps of two cores may be taken
in either order. -/
def Obligations.CoresAreIndependent : Prop :=
  ∀ (sys : System) (j k : Nat), j ≠ k →
    ∃ u v w, System.stepAt j sys = .next u ∧ System.stepAt k sys = .next v ∧ u[k]? = sys[k]?
      ∧ System.stepAt k u = .next w ∧ System.stepAt j v = .next w

/-! ### The Block Transform (40_block_transform.md) -/

/-- R67: bit `i` of `rotl32(x, n)` is bit `(i - n) mod 32` of `x`, and rotation left by 30 is rotation right by 2. -/
def Obligations.RotateLeftBits : Prop :=
  ∀ x : Word, (∀ n i : Nat, 0 < n → n < 32 → i < 32 → (rotl32 x n).getLsbD i = x.getLsbD ((i + 32 - n) % 32))
    ∧ rotl32 x 30 = (x >>> 2 ||| x <<< 30)

/-- R68, R31: schedule words 0 to 15 are big-endian reads of the block's 4-byte groups. -/
def Obligations.ScheduleLoadsBigEndian : Prop :=
  ∀ (B : Block) (i : Fin 16),
    ((schedule B).getD i.val 0).toNat =
      B[4 * i.val].toNat * 2 ^ 24 + B[4 * i.val + 1].toNat * 2 ^ 16 + B[4 * i.val + 2].toNat * 2 ^ 8
        + B[4 * i.val + 3].toNat

/-- R69: schedule words 16 to 79 obey the recurrence; there are 80 words; the all-zero block gives all-zero words. -/
def Obligations.ScheduleRecurrence : Prop :=
  (∀ B : Block, (schedule B).length = 80 ∧ ∀ t, 16 ≤ t → t < 80 →
      (schedule B).getD t 0 =
        rotl32 ((schedule B).getD (t - 3) 0 ^^^ (schedule B).getD (t - 8) 0 ^^^ (schedule B).getD (t - 14) 0
          ^^^ (schedule B).getD (t - 16) 0) 1)
    ∧ ∀ t, t < 80 → (schedule (Vector.replicate 64 0)).getD t 0 = 0

/-- R71, R72, R73, R74: the function and the constant of each stage. -/
def Obligations.StageFunctionsAndConstants : Prop :=
  ∀ (t : Nat) (b c d : Word),
    (t < 20 → roundFunction t b c d = (b &&& c ||| ~~~b &&& d) ∧ roundConstant t = 0x5A827999)
    ∧ (20 ≤ t → t < 40 → roundFunction t b c d = b ^^^ c ^^^ d ∧ roundConstant t = 0x6ED9EBA1)
    ∧ (40 ≤ t → t < 60 → roundFunction t b c d = (b &&& c ||| b &&& d ||| c &&& d) ∧ roundConstant t = 0x8F1BBCDC)
    ∧ (60 ≤ t → t < 80 → roundFunction t b c d = b ^^^ c ^^^ d ∧ roundConstant t = 0xCA62C1D6)

/-- R71, R73: bit by bit, stage 0 selects by `b` and stage 2 is the majority of the three. -/
def Obligations.StageFunctionsBitwise : Prop :=
  ∀ (b c d : Word) (i : Nat), i < 32 →
    (stageSelect b c d).getLsbD i = (if b.getLsbD i then c.getLsbD i else d.getLsbD i)
    ∧ (stageMajority b c d).getLsbD i = decide (2 ≤ (b.getLsbD i).toNat + (c.getLsbD i).toNat + (d.getLsbD i).toNat)

/-- R75, R76: one round: `temp` modulo 2^32 from the values at its start, and the simultaneous shift. -/
def Obligations.RoundComputesTempAndShifts : Prop :=
  ∀ (t : Nat) (w a b c d e : Word),
    roundStep t w ⟨a, b, c, d, e⟩
        = ⟨rotl32 a 5 + roundFunction t b c d + e + roundConstant t + w, a, rotl32 b 30, c, d⟩
      ∧ (roundStep t w ⟨a, b, c, d, e⟩).h0.toNat =
          ((rotl32 a 5).toNat + (roundFunction t b c d).toNat + e.toNat + (roundConstant t).toNat + w.toNat) % 2 ^ 32

/-- R78, R77: the whole transform: round `t` uses `W[t]` for `t` from 0 to 79, and the result is the input state plus the
final variables, element-wise modulo 2^32. `v 0 = S`, the working variables start as the state's words in index order,
is PRESUMED, log entry 8: rule R70 marks that order as from general knowledge. -/
def Obligations.TransformIsEightyRounds : Prop :=
  ∀ (S : Chain) (B : Block), ∃ v : Nat → Chain, v 0 = S
    ∧ (∀ t, t < 80 → v (t + 1) = roundStep t ((schedule B).getD t 0) (v t))
    ∧ transform S B = ⟨S.h0 + (v 80).h0, S.h1 + (v 80).h1, S.h2 + (v 80).h2, S.h3 + (v 80).h3, S.h4 + (v 80).h4⟩

/-- R83, R84: the form with 16 schedule words, each `W[t]` computed into slot `t mod 16` just before round `t`, is the
same function. -/
def Obligations.RingScheduleIsEquivalent : Prop :=
  ∀ (S : Chain) (B : Block), ringTransform S B = transform S B

/-- R54: the transform as a unit with packed ports: `state_out` for every `state_in` and `block_in`; the packing of the
state ports, word 0 in bits 159:128, and of the block port, byte 0 in bits 511:504; and `W[i]` as a slice of the block
port. -/
def Obligations.TransformUnitPorts : Prop :=
  (∀ (S : Chain) (B : Block), transformUnit (packChain S) (packBlock B) = packChain (transform S B))
    ∧ (∀ (S : Chain) (i : Fin 5), (packChain S).extractLsb' (128 - 32 * i.val) 32 = chainWord S i.val)
    ∧ (∀ (B : Block) (p : Fin 64), (packBlock B).extractLsb' (504 - 8 * p.val) 8 = B[p])
    ∧ ∀ (B : Block) (i : Fin 16), (schedule B).getD i.val 0 = (packBlock B).extractLsb' (480 - 32 * i.val) 32

/-! ### The invariant and the digest (R23, R99, R103) -/

/-- R24: the reset state meets the invariant, whatever the host's inputs. -/
def Obligations.ResetMeetsInvariant : Prop :=
  ∀ is : List HostInput, State.Inv { State.reset with input := is }

/-- R23 in inductive form: from every state that meets the invariant, a step gives a state that meets it. -/
def Obligations.StepKeepsInvariant : Prop :=
  ∀ s t : State, s.Inv → step s = .next t → t.Inv

/-- R23: between any two commands, in every state reached from reset by any inputs, items 1 to 7 hold (and the
invariant they rest on). -/
def Obligations.ReachedStatesHaveStateFacts : Prop :=
  ∀ (is : List HostInput) (n : Nat) (t : State),
    Host.Core.run core n { State.reset with input := is } = .next t → t.Inv ∧ t.Facts

/-- R23, items 1 to 7, in every state that meets the invariant. -/
def Obligations.InvariantGivesStateFacts : Prop :=
  ∀ s : State, s.Inv → s.Facts

/-- R103: the padded message: its length, a multiple of 64, and its bytes after the message. -/
def Obligations.PaddedMessageShape : Prop :=
  ∀ M : List Byte, ∃ z : Nat, z ≤ 63 ∧ (z : Int) = (55 - (M.length : Int)) % 64
    ∧ padMessage M = M ++ [0x80] ++ zeros z ++ len8 (BitVec.ofNat 64 (8 * M.length))
    ∧ (padMessage M).length = M.length + 9 + z ∧ 64 ∣ (padMessage M).length

/-- R99: the transforms a message costs, as the blocks that `H` is folded over. In a core that has absorbed `M`, `H` is
the fold over the `floor(L / 64)` complete blocks of `M`; an UPDATE transforms one more block exactly at `buf_len` 63;
FINALIZE transforms one padded block when `buf_len <= 55` and two when `buf_len >= 56`, and `H` is then the fold over the
`floor((L + 8) / 64) + 1` blocks of the padded message. INIT and one UPDATE for each byte lead every state to such a
core. -/
def Obligations.NumberOfTransforms : Prop :=
  (∀ (M : List Byte) (s : State), s.Absorbed M → s.phase ≠ .finalized →
      (s.H = foldTransform hInit (blocksOf M) ∧ (blocksOf M).length = M.length / 64)
      ∧ (∀ d : Byte, ∃ t Bs, exec (.update d) s = .next t ∧ t.H = foldTransform s.H Bs
          ∧ Bs = (if s.bufLen = 63 then [(storeByte d (countByte s)).bufBlock] else [])
          ∧ blocksOf (M ++ [d]) = blocksOf M ++ Bs)
      ∧ ∃ t Bs, exec .finalize s = .next t ∧ t.H = foldTransform s.H Bs
          ∧ (s.bufLen.toNat ≤ 55 → Bs = [oneBlockPadding s])
          ∧ (56 ≤ s.bufLen.toNat → Bs = [firstOfTwoPadding s, secondOfTwoPadding s.bitlen])
          ∧ blocksOf (padMessage M) = blocksOf M ++ Bs ∧ t.H = foldTransform hInit (blocksOf (padMessage M))
          ∧ (blocksOf (padMessage M)).length = (M.length + 8) / 64 + 1)
    ∧ ∀ (M : List Byte) (s : State), ∃ u,
        runCommands (.init :: updateChunk M) s = some (u, List.replicate (M.length + 1) .ok)
          ∧ u.Absorbed M ∧ u.phase ≠ .finalized

/-- R103 (with R100, R104): from every state, INIT, one UPDATE for each byte of `M` and FINALIZE are all answered OK,
and the digest port then holds the big-endian serialization of `S_m`, the fold of the transform over the padded
message; `len_ovf` says whether `M` has 2^61 bytes or more. The same as steps of the machine, whatever inputs follow. -/
def Obligations.DigestOfEveryMessage : Prop :=
  ∀ (M : List Byte) (s : State),
    (∃ t, runCommands (digestCommands M) s = some (t, List.replicate (M.length + 2) .ok)
        ∧ t.digestValid = 1 ∧ t.digest = packChain (digestState M)
        ∧ (List.range 20).map t.digestByte = serialize (digestState M) ∧ t.lenOvf = decide (2 ^ 61 ≤ M.length))
    ∧ ∀ rest, s.input = commandInputs (digestCommands M) ++ rest →
        ∃ t, Host.Core.run core (M.length + 2) s = .next t ∧ t.digestValid = 1
          ∧ t.digest = packChain (digestState M) ∧ t.input = rest

/-- R103 from reset: no INIT is needed after reset (R132). -/
def Obligations.DigestAfterReset : Prop :=
  ∀ (M : List Byte) (s : State),
    ∃ t, runCommands (updateChunk M ++ [.finalize]) (hostReset s) = some (t, List.replicate (M.length + 1) .ok)
      ∧ t.digestValid = 1 ∧ t.digest = packChain (digestState M) ∧ t.lenOvf = decide (2 ^ 61 ≤ M.length)
end

