-- ==== Sys2Proof/Laws/State.lean ====
section
/-! SUPPORT. One lemma per field for each named update of State, true by unfolding, so that no later proof unfolds a
record update. -/

namespace Sys2Proof.Machine

/-! ### State.reset -/

@[simp] theorem reset_H  : (State.reset).H = hInit := rfl
@[simp] theorem reset_bitlen  : (State.reset).bitlen = 0 := rfl
@[simp] theorem reset_buf  : (State.reset).buf = [] := rfl
@[simp] theorem reset_bufLen  : (State.reset).bufLen = 0 := rfl
@[simp] theorem reset_phase  : (State.reset).phase = .empty := rfl
@[simp] theorem reset_lenOvf  : (State.reset).lenOvf = false := rfl
@[simp] theorem reset_rsp  : (State.reset).rsp = none := rfl
@[simp] theorem reset_input  : (State.reset).input = [] := rfl
@[simp] theorem reset_freeCount  : (State.reset).freeCount = 0 := rfl

/-! ### countByte (rule R88) -/

@[simp] theorem countByte_H (s : State) : (countByte s).H = s.H := rfl
@[simp] theorem countByte_bitlen (s : State) : (countByte s).bitlen = add64 s.bitlen 8 := rfl
@[simp] theorem countByte_buf (s : State) : (countByte s).buf = s.buf := rfl
@[simp] theorem countByte_bufLen (s : State) : (countByte s).bufLen = s.bufLen := rfl
@[simp] theorem countByte_phase (s : State) : (countByte s).phase = s.phase := rfl
@[simp] theorem countByte_lenOvf (s : State) : (countByte s).lenOvf = lenOvfAfter s.bitlen s.lenOvf := rfl
@[simp] theorem countByte_rsp (s : State) : (countByte s).rsp = s.rsp := rfl
@[simp] theorem countByte_input (s : State) : (countByte s).input = s.input := rfl
@[simp] theorem countByte_freeCount (s : State) : (countByte s).freeCount = s.freeCount := rfl

/-! ### storeByte (rule R89) -/

@[simp] theorem storeByte_H (d : Byte) (s : State) : (storeByte d s).H = s.H := rfl
@[simp] theorem storeByte_bitlen (d : Byte) (s : State) : (storeByte d s).bitlen = s.bitlen := rfl
@[simp] theorem storeByte_buf (d : Byte) (s : State) : (storeByte d s).buf = s.buf.write s.storePosition d := rfl
@[simp] theorem storeByte_bufLen (d : Byte) (s : State) : (storeByte d s).bufLen = s.bufLen := rfl
@[simp] theorem storeByte_phase (d : Byte) (s : State) : (storeByte d s).phase = s.phase := rfl
@[simp] theorem storeByte_lenOvf (d : Byte) (s : State) : (storeByte d s).lenOvf = s.lenOvf := rfl
@[simp] theorem storeByte_rsp (d : Byte) (s : State) : (storeByte d s).rsp = s.rsp := rfl
@[simp] theorem storeByte_input (d : Byte) (s : State) : (storeByte d s).input = s.input := rfl
@[simp] theorem storeByte_freeCount (d : Byte) (s : State) : (storeByte d s).freeCount = s.freeCount := rfl

/-! ### forgetBuffer (rule R97) -/

@[simp] theorem forgetBuffer_H (s : State) : (forgetBuffer s).H = s.H := rfl
@[simp] theorem forgetBuffer_bitlen (s : State) : (forgetBuffer s).bitlen = s.bitlen := rfl
@[simp] theorem forgetBuffer_buf (s : State) : (forgetBuffer s).buf = [] := rfl
@[simp] theorem forgetBuffer_bufLen (s : State) : (forgetBuffer s).bufLen = s.bufLen := rfl
@[simp] theorem forgetBuffer_phase (s : State) : (forgetBuffer s).phase = s.phase := rfl
@[simp] theorem forgetBuffer_lenOvf (s : State) : (forgetBuffer s).lenOvf = s.lenOvf := rfl
@[simp] theorem forgetBuffer_rsp (s : State) : (forgetBuffer s).rsp = s.rsp := rfl
@[simp] theorem forgetBuffer_input (s : State) : (forgetBuffer s).input = s.input := rfl
@[simp] theorem forgetBuffer_freeCount (s : State) : (forgetBuffer s).freeCount = s.freeCount + 1 := rfl

/-! ### hostReset (rule R130) -/

@[simp] theorem hostReset_H (s : State) : (hostReset s).H = hInit := rfl
@[simp] theorem hostReset_bitlen (s : State) : (hostReset s).bitlen = 0 := rfl
@[simp] theorem hostReset_buf (s : State) : (hostReset s).buf = [] := rfl
@[simp] theorem hostReset_bufLen (s : State) : (hostReset s).bufLen = 0 := rfl
@[simp] theorem hostReset_phase (s : State) : (hostReset s).phase = .empty := rfl
@[simp] theorem hostReset_lenOvf (s : State) : (hostReset s).lenOvf = false := rfl
@[simp] theorem hostReset_rsp (s : State) : (hostReset s).rsp = none := rfl
@[simp] theorem hostReset_input (s : State) : (hostReset s).input = s.input := rfl
@[simp] theorem hostReset_freeCount (s : State) : (hostReset s).freeCount = s.freeCount + 1 := rfl

/-! ### State.withFetchWord -/

@[simp] theorem withFetchWord_H (s : State) (n w : Nat) : (s.withFetchWord n w).H = s.H := rfl
@[simp] theorem withFetchWord_bitlen (s : State) (n w : Nat) : (s.withFetchWord n w).bitlen = s.bitlen := rfl
@[simp] theorem withFetchWord_buf (s : State) (n w : Nat) : (s.withFetchWord n w).buf = s.buf := rfl
@[simp] theorem withFetchWord_bufLen (s : State) (n w : Nat) : (s.withFetchWord n w).bufLen = s.bufLen := rfl
@[simp] theorem withFetchWord_phase (s : State) (n w : Nat) : (s.withFetchWord n w).phase = s.phase := rfl
@[simp] theorem withFetchWord_lenOvf (s : State) (n w : Nat) : (s.withFetchWord n w).lenOvf = s.lenOvf := rfl
@[simp] theorem withFetchWord_rsp (s : State) (n w : Nat) : (s.withFetchWord n w).rsp = s.rsp := rfl
@[simp] theorem withFetchWord_input (s : State) (n w : Nat) : (s.withFetchWord n w).input = .command (BitVec.ofNat 10 (w % 2 ^ n)) :: s.input := rfl
@[simp] theorem withFetchWord_freeCount (s : State) (n w : Nat) : (s.withFetchWord n w).freeCount = s.freeCount := rfl

/-! ### advanceBuffer (rule R89): the two cases, and the fields it never writes -/

theorem advanceBuffer_full {s : State} (h : s.bufLen = 63) :
    advanceBuffer s = { s with H := transform s.H s.bufBlock, bufLen := 0 } := if_pos h

theorem advanceBuffer_partial {s : State} (h : s.bufLen ≠ 63) :
    advanceBuffer s = { s with bufLen := s.bufLen + 1 } := if_neg h

@[simp] theorem advanceBuffer_bitlen (s : State) : (advanceBuffer s).bitlen = s.bitlen := by
  unfold advanceBuffer; split <;> rfl
@[simp] theorem advanceBuffer_buf (s : State) : (advanceBuffer s).buf = s.buf := by
  unfold advanceBuffer; split <;> rfl
@[simp] theorem advanceBuffer_phase (s : State) : (advanceBuffer s).phase = s.phase := by
  unfold advanceBuffer; split <;> rfl
@[simp] theorem advanceBuffer_lenOvf (s : State) : (advanceBuffer s).lenOvf = s.lenOvf := by
  unfold advanceBuffer; split <;> rfl
@[simp] theorem advanceBuffer_rsp (s : State) : (advanceBuffer s).rsp = s.rsp := by
  unfold advanceBuffer; split <;> rfl
@[simp] theorem advanceBuffer_input (s : State) : (advanceBuffer s).input = s.input := by
  unfold advanceBuffer; split <;> rfl
@[simp] theorem advanceBuffer_freeCount (s : State) : (advanceBuffer s).freeCount = s.freeCount := by
  unfold advanceBuffer; split <;> rfl

end Sys2Proof.Machine
end

