-- ==== Sys2Proof/Laws/Memory.lean ====
section
/-! SUPPORT. The block buffer: read after write, the canonical form, and what a store does to each byte (rules R15,
R89). -/

namespace Sys2Proof.Machine

@[simp] theorem Memory.read_nil (p : Nat) : Memory.read [] p = none := rfl

/-- Read after write, at every position and for every list of cells. -/
theorem Memory.read_write (m : Memory) (p : Nat) (v : Byte) (q : Nat) :
    (m.write p v).read q = if q = p then some v else m.read q := by
  induction m with
  | nil => simp [Memory.write, Memory.read, eq_comm (a := p)]
  | cons c m ih =>
    obtain ⟨a, w⟩ := c
    simp only [Memory.write]
    split
    · simp [Memory.read, eq_comm (a := p)]
    · split
      · next h => subst h; by_cases h : a = q <;> simp [Memory.read, h, eq_comm (a := q)]
      · next hne =>
        simp only [Memory.read, ih]
        by_cases h : a = q
        · have : q ≠ p := fun e => hne (h.trans e)
          simp [h, this]
        · simp [h]

/-- A cell after a write is the written one or one that was there. -/
theorem Memory.mem_write {m : Memory} {p : Nat} {v : Byte} {c : Host.Cell} (h : c ∈ m.write p v) :
    c = (p, v) ∨ c ∈ m := by
  induction m with
  | nil => simpa [Memory.write] using h
  | cons d m ih =>
    obtain ⟨a, w⟩ := d
    simp only [Memory.write] at h
    split at h
    · simpa using h
    · split at h
      · simp only [List.mem_cons] at h ⊢; tauto
      · simp only [List.mem_cons] at h ⊢
        rcases h with h | h
        · exact .inr (.inl h)
        · exact (ih h).imp_right .inr

/-- A write inside the buffer keeps the canonical form. -/
theorem Memory.write_wf {m : Memory} (h : m.wf) {p : Nat} (hp : p < 64) (v : Byte) : (m.write p v).wf := by
  refine ⟨?_, fun c hc => ?_⟩
  · obtain ⟨h, -⟩ := h
    induction m with
    | nil => simp [Memory.write]
    | cons c m ih =>
      obtain ⟨a, w⟩ := c
      obtain ⟨ha, hm⟩ := List.pairwise_cons.1 h
      simp only [Memory.write]
      split
      · next hlt =>
        refine List.pairwise_cons.2 ⟨fun d hd => ?_, h⟩
        rcases List.mem_cons.1 hd with rfl | hd
        · exact hlt
        · exact hlt.trans (ha d hd)
      · split
        · next he => subst he; exact List.pairwise_cons.2 ⟨ha, hm⟩
        · next hge hne =>
          refine List.pairwise_cons.2 ⟨fun d hd => ?_, ih hm⟩
          rcases Memory.mem_write hd with rfl | hd
          · simp only; omega
          · exact ha d hd
  · rcases Memory.mem_write hc with rfl | hc
    · exact hp
    · exact h.2 c hc

theorem Memory.nil_wf : Memory.wf [] := by simp [Memory.wf]

theorem bufByte_of_buf {s t : State} (hb : s.buf = t.buf) (hf : s.freeCount = t.freeCount) (p : Nat) :
    s.bufByte p = t.bufByte p := by simp [State.bufByte, hb, hf]

/-- The store writes one byte and leaves the 63 others alone. -/
theorem bufByte_storeByte (d : Byte) (s : State) (p : Nat) :
    (storeByte d s).bufByte p = if p = s.storePosition then d else s.bufByte p := by
  simp only [State.bufByte, storeByte_buf, Memory.read_write, storeByte_freeCount]
  by_cases h : p = s.storePosition <;> simp [h]

@[simp] theorem length_memRead (s : State) (p n : Nat) : (memRead s p n).length = n := by simp [memRead]

@[simp] theorem length_validBytes (s : State) : s.validBytes.length = s.bufLen.toNat := by simp [State.validBytes]

theorem validBytes_eq_map (s : State) : s.validBytes = (List.range s.bufLen.toNat).map s.bufByte := by
  simp [State.validBytes, memRead]

/-- The valid bytes are determined by the bytes at the valid positions. -/
theorem validBytes_congr {s t : State} (hl : s.bufLen = t.bufLen)
    (hb : ∀ p < s.bufLen.toNat, s.bufByte p = t.bufByte p) : s.validBytes = t.validBytes := by
  rw [validBytes_eq_map, validBytes_eq_map, ← hl]
  exact List.map_congr_left fun p hp => hb p (List.mem_range.1 hp)

theorem getD_validBytes {s : State} {p : Nat} (h : p < s.bufLen.toNat) : s.validBytes.getD p 0 = s.bufByte p := by
  simp [validBytes_eq_map, List.getD_eq_getElem?_getD, h]

theorem bufLen_lt (s : State) : s.bufLen.toNat < 64 := s.bufLen.isLt

theorem bufLen_eq_63 {s : State} : s.bufLen = 63 ↔ s.bufLen.toNat = 63 := by
  rw [← BitVec.toNat_inj]; rfl

end Sys2Proof.Machine
end

