-- ==== Sys2Proof/Laws/Message.lean ====
section
/-! SUPPORT. Byte sequences cut into 64-byte blocks (rules R89, R103, R105). -/

namespace Sys2Proof.Machine

theorem blockAt_append_left {xs : List Byte} {p : Nat} (h : p + 64 ≤ xs.length) (ys : List Byte) :
    blockAt (xs ++ ys) p = blockAt xs p := by
  apply Vector.ext
  intro i hi
  simp only [blockAt, Vector.getElem_ofFn]
  exact List.getD_append _ _ _ _ (by omega)

theorem blockAt_append_right (xs ys : List Byte) (p : Nat) : blockAt (xs ++ ys) (xs.length + p) = blockAt ys p := by
  apply Vector.ext
  intro i hi
  simp only [blockAt, Vector.getElem_ofFn]
  rw [List.getD_append_right _ _ _ _ (by omega)]
  congr 1
  omega

/-- Whole blocks in front are cut off first. -/
theorem blocksOf_append_whole {xs : List Byte} {k : Nat} (h : xs.length = 64 * k) (ys : List Byte) :
    blocksOf (xs ++ ys) = blocksOf xs ++ blocksOf ys := by
  have hx : xs.length / 64 = k := by omega
  have hxy : (xs ++ ys).length / 64 = k + ys.length / 64 := by rw [List.length_append]; omega
  have hl : (List.range k).map (fun j => blockAt (xs ++ ys) (64 * j)) = (List.range k).map fun j => blockAt xs (64 * j) :=
    List.map_congr_left fun j hj => blockAt_append_left (by have := List.mem_range.1 hj; omega) ys
  have hr : (List.range (ys.length / 64)).map ((fun j => blockAt (xs ++ ys) (64 * j)) ∘ (k + ·))
      = (List.range (ys.length / 64)).map fun j => blockAt ys (64 * j) :=
    List.map_congr_left fun j _ => by
      rw [← blockAt_append_right xs ys (64 * j), h, ← Nat.mul_add, Function.comp_apply]
  rw [blocksOf, blocksOf, blocksOf, hx, hxy, List.range_add, List.map_append, List.map_map, hl, hr]

theorem blocksOf_short {xs : List Byte} (h : xs.length < 64) : blocksOf xs = [] := by
  simp [blocksOf, Nat.div_eq_of_lt h]

theorem blocksOf_one {xs : List Byte} (h : xs.length = 64) : blocksOf xs = [blockAt xs 0] := by
  simp [blocksOf, h]

@[simp] theorem length_leftover (xs : List Byte) : (leftover xs).length = xs.length % 64 := by
  simp [leftover]; omega

theorem leftover_short {xs : List Byte} (h : xs.length < 64) : leftover xs = xs := by
  simp [leftover, Nat.div_eq_of_lt h]

theorem leftover_append_whole {xs : List Byte} {k : Nat} (h : xs.length = 64 * k) (ys : List Byte) :
    leftover (xs ++ ys) = leftover ys := by
  have hxy : 64 * ((xs ++ ys).length / 64) = xs.length + 64 * (ys.length / 64) := by
    rw [List.length_append]; omega
  simp only [leftover, hxy, ← List.drop_drop, List.drop_left]

/-- The whole blocks of a sequence, as bytes. -/
def wholePart (xs : List Byte) : List Byte := xs.take (64 * (xs.length / 64))

theorem length_wholePart (xs : List Byte) : (wholePart xs).length = 64 * (xs.length / 64) := by
  simp [wholePart]; omega

theorem wholePart_append_leftover (xs : List Byte) : wholePart xs ++ leftover xs = xs := List.take_append_drop _ _

theorem blocksOf_wholePart (xs : List Byte) : blocksOf (wholePart xs) = blocksOf xs := by
  have hs : blocksOf (leftover xs) = [] := blocksOf_short (by rw [length_leftover]; exact Nat.mod_lt _ (by omega))
  have h := blocksOf_append_whole (length_wholePart xs) (leftover xs)
  rw [wholePart_append_leftover, hs, List.append_nil] at h
  exact h.symm

/-- Cutting a sequence in two steps: the leftover of the first part goes in front of the second (rule R105). -/
theorem blocksOf_append (xs ys : List Byte) : blocksOf (xs ++ ys) = blocksOf xs ++ blocksOf (leftover xs ++ ys) := by
  have h := blocksOf_append_whole (length_wholePart xs) (leftover xs ++ ys)
  rwa [← List.append_assoc, wholePart_append_leftover, blocksOf_wholePart] at h

theorem leftover_append (xs ys : List Byte) : leftover (xs ++ ys) = leftover (leftover xs ++ ys) := by
  have h := leftover_append_whole (length_wholePart xs) (leftover xs ++ ys)
  rwa [← List.append_assoc, wholePart_append_leftover] at h

theorem foldTransform_append (S : Chain) (as bs : List Block) :
    foldTransform S (as ++ bs) = foldTransform (foldTransform S as) bs := List.foldl_append

@[simp] theorem foldTransform_nil (S : Chain) : foldTransform S [] = S := rfl

@[simp] theorem foldTransform_cons (S : Chain) (B : Block) (Bs : List Block) :
    foldTransform S (B :: Bs) = foldTransform (transform S B) Bs := List.foldl_cons ..

@[simp] theorem length_zeros (k : Nat) : (zeros k).length = k := by simp [zeros]

@[simp] theorem length_len8 (v : BitVec 64) : (len8 v).length = 8 := by simp [len8]

theorem getD_zeros (k i : Nat) : (zeros k).getD i 0 = 0 := by
  induction k generalizing i with
  | zero => rfl
  | succ k ih =>
    rw [zeros, List.replicate_succ]
    cases i with
    | zero => rfl
    | succ i => rw [List.getD_cons_succ]; exact ih i

theorem getD_len8 (v : BitVec 64) {k : Nat} (h : k < 8) : (len8 v).getD k 0 = lenByte v k := by
  simp [len8, List.getD_eq_getElem?_getD, h]

/-- `z` as a natural number: the zero bytes that bring the message to 56 modulo 64. -/
theorem padZeros_eq (L : Nat) : padZeros L = if L % 64 ≤ 55 then 55 - L % 64 else 119 - L % 64 := by
  unfold padZeros; split <;> omega

end Sys2Proof.Machine
end

