-- ==== Sys2Proof/Laws/Exec.lean ====
section
/-! SUPPORT. What each command and each step can do, said once (rules R86, R87, R92, R114, R131). -/

namespace Sys2Proof.Machine

theorem exec_init (s : State) :
    exec .init s =
      .next { s with H := hInit, bitlen := 0, bufLen := 0, lenOvf := false, phase := .empty, rsp := some .ok } := rfl

theorem exec_reserved (s : State) : exec .reserved s = .next { s with rsp := some .invalidCommand } := rfl

theorem exec_update_refused {s : State} (h : s.phase = .finalized) (d : Byte) :
    exec (.update d) s = .next { s with rsp := some .invalidState } := by
  simp [exec, execUpdate, unlessFinalized, refuse, h]

theorem exec_finalize_refused {s : State} (h : s.phase = .finalized) :
    exec .finalize s = .next { s with rsp := some .invalidState } := by
  simp [exec, execFinalize, unlessFinalized, refuse, h]

/-- The state an accepted UPDATE leads to. -/
def updated (d : Byte) (s : State) : State :=
  { advanceBuffer (storeByte d (countByte s)) with phase := .accumulating, rsp := some .ok }

/-- The state an accepted FINALIZE leads to. -/
def finalizedState (s : State) : State :=
  { forgetBuffer s with H := finalState s, bufLen := 0, phase := .finalized, rsp := some .ok }

theorem exec_update {s : State} (h : s.phase ≠ .finalized) (d : Byte) :
    exec (.update d) s = .next (updated d s) := by
  simp only [exec, execUpdate, unlessFinalized, if_neg h, accept, updated]

theorem exec_finalize {s : State} (h : s.phase ≠ .finalized) : exec .finalize s = .next (finalizedState s) := by
  simp only [exec, execFinalize, unlessFinalized, if_neg h, accept, finalizedState]

@[simp] theorem updated_bitlen (d : Byte) (s : State) : (updated d s).bitlen = add64 s.bitlen 8 := by simp [updated]
@[simp] theorem updated_lenOvf (d : Byte) (s : State) : (updated d s).lenOvf = lenOvfAfter s.bitlen s.lenOvf := by
  simp [updated]
@[simp] theorem updated_phase (d : Byte) (s : State) : (updated d s).phase = .accumulating := rfl
@[simp] theorem updated_rsp (d : Byte) (s : State) : (updated d s).rsp = some .ok := rfl
@[simp] theorem updated_input (d : Byte) (s : State) : (updated d s).input = s.input := by simp [updated]
@[simp] theorem updated_freeCount (d : Byte) (s : State) : (updated d s).freeCount = s.freeCount := by simp [updated]
@[simp] theorem updated_buf (d : Byte) (s : State) : (updated d s).buf = s.buf.write s.bufLen.toNat d := by
  simp [updated, State.storePosition]

/-- An accepted UPDATE writes one byte of the buffer (rule R89). -/
theorem bufByte_updated (d : Byte) (s : State) (p : Nat) :
    (updated d s).bufByte p = if p = s.bufLen.toNat then d else s.bufByte p := by
  have h : (updated d s).bufByte p = (storeByte d (countByte s)).bufByte p := bufByte_of_buf (by simp [updated]) (by simp) p
  rw [h, bufByte_storeByte]
  rfl

theorem updated_bufLen_partial {s : State} (h : s.bufLen ≠ 63) (d : Byte) :
    (updated d s).bufLen = s.bufLen + 1 ∧ (updated d s).H = s.H := by
  have h' : (storeByte d (countByte s)).bufLen ≠ 63 := h
  rw [updated, advanceBuffer_partial h']
  exact ⟨rfl, rfl⟩

theorem updated_bufLen_full {s : State} (h : s.bufLen = 63) (d : Byte) :
    (updated d s).bufLen = 0 ∧ (updated d s).H = transform s.H (storeByte d (countByte s)).bufBlock := by
  have h' : (storeByte d (countByte s)).bufLen = 63 := h
  rw [updated, advanceBuffer_full h']
  exact ⟨rfl, rfl⟩

theorem toNat_bufLen_succ {s : State} (h : s.bufLen ≠ 63) : (s.bufLen + 1).toNat = s.bufLen.toNat + 1 := by
  have h1 := bufLen_lt s
  have h2 : s.bufLen.toNat ≠ 63 := fun e => h (bufLen_eq_63.2 e)
  rw [BitVec.toNat_add]
  exact Nat.mod_eq_of_lt (by simp; omega)

/-- The block that an UPDATE at position 63 completes: the valid bytes and the new one (rule R89). -/
theorem bufBlock_full {s : State} (h : s.bufLen = 63) (d : Byte) :
    (storeByte d (countByte s)).bufBlock = blockAt (s.validBytes ++ [d]) 0 := by
  have hn := bufLen_eq_63.1 h
  apply Vector.ext
  intro i hi
  simp only [State.bufBlock, blockAt, Vector.getElem_ofFn, bufByte_storeByte, Nat.zero_add]
  have hp : (countByte s).storePosition = 63 := hn
  rw [hp]
  split
  · next he =>
    rw [List.getD_append_right _ _ _ _ (by simp; omega)]
    simp [hn, he]
  · next he =>
    rw [List.getD_append _ _ _ _ (by simp; omega), getD_validBytes (by omega)]
    exact bufByte_of_buf rfl rfl i

/-- An accepted UPDATE, on the bytes the buffer holds: they and the new byte, cut into blocks (rules R89, R105). -/
theorem updated_absorbs (d : Byte) (s : State) :
    (updated d s).H = foldTransform s.H (blocksOf (s.validBytes ++ [d]))
      ∧ (updated d s).validBytes = leftover (s.validBytes ++ [d]) := by
  by_cases h : s.bufLen = 63
  · obtain ⟨hl, hH⟩ := updated_bufLen_full h d
    have hn : (s.validBytes ++ [d]).length = 64 := by simp [bufLen_eq_63.1 h]
    refine ⟨?_, ?_⟩
    · rw [hH, bufBlock_full h, blocksOf_one hn, foldTransform_cons, foldTransform_nil]
    · rw [leftover, hn, validBytes_eq_map, hl]
      simp [hn]
  · obtain ⟨hl, hH⟩ := updated_bufLen_partial h d
    have hlt := bufLen_lt s
    have hne : s.bufLen.toNat ≠ 63 := fun e => h (bufLen_eq_63.2 e)
    have hn : (s.validBytes ++ [d]).length < 64 := by simp; omega
    refine ⟨?_, ?_⟩
    · rw [hH, blocksOf_short hn, foldTransform_nil]
    · rw [leftover_short hn, validBytes_eq_map, hl, toNat_bufLen_succ h, List.range_succ, List.map_append,
        validBytes_eq_map]
      congr 1
      · refine List.map_congr_left fun p hp => ?_
        have := List.mem_range.1 hp
        rw [bufByte_updated, if_neg (by omega)]
      · simp [bufByte_updated]

/-- The padded block of rule R93 as a byte sequence (rule R92). -/
theorem oneBlockPadding_eq {s : State} (h : s.bufLen.toNat ≤ 55) :
    oneBlockPadding s = blockAt (s.validBytes ++ [0x80] ++ zeros (55 - s.bufLen.toNat) ++ len8 s.bitlen) 0 := by
  apply Vector.ext
  intro i hi
  simp only [oneBlockPadding, blockAt, Vector.getElem_ofFn, Nat.zero_add]
  rcases Nat.lt_trichotomy i s.bufLen.toNat with hlt | he | hgt
  · rw [if_pos hlt, List.append_assoc, List.append_assoc, List.getD_append _ _ _ _ (by simpa using hlt),
      getD_validBytes hlt]
  · rw [if_neg (by omega), if_pos he, List.append_assoc, List.append_assoc,
      List.getD_append_right _ _ _ _ (by simp; omega)]
    simp [he]
  · rw [if_neg (by omega), if_neg (by omega)]
    split
    · next h56 =>
      rw [List.getD_append _ _ _ _ (by simp; omega), List.getD_append_right _ _ _ _ (by simp; omega), getD_zeros]
    · next h56 =>
      rw [List.getD_append_right _ _ _ _ (by simp; omega)]
      have hi' : i - (s.validBytes ++ [0x80] ++ zeros (55 - s.bufLen.toNat)).length = i - 56 := by simp; omega
      rw [hi', getD_len8 _ (by omega)]

/-- The first of two padded blocks as a byte sequence (rules R92, R94). -/
theorem firstOfTwoPadding_eq (s : State) :
    firstOfTwoPadding s = blockAt (s.validBytes ++ [0x80] ++ zeros (63 - s.bufLen.toNat)) 0 := by
  have hl := bufLen_lt s
  apply Vector.ext
  intro i hi
  simp only [firstOfTwoPadding, blockAt, Vector.getElem_ofFn, Nat.zero_add]
  rcases Nat.lt_trichotomy i s.bufLen.toNat with hlt | he | hgt
  · rw [if_pos hlt, List.append_assoc, List.getD_append _ _ _ _ (by simpa using hlt), getD_validBytes hlt]
  · rw [if_neg (by omega), if_pos he, List.append_assoc, List.getD_append_right _ _ _ _ (by simp; omega)]
    simp [he]
  · rw [if_neg (by omega), if_neg (by omega), List.getD_append_right _ _ _ _ (by simp; omega), getD_zeros]

/-- The second of two padded blocks as a byte sequence (rules R92, R94). -/
theorem secondOfTwoPadding_eq (bitlen : BitVec 64) : secondOfTwoPadding bitlen = blockAt (zeros 56 ++ len8 bitlen) 0 := by
  apply Vector.ext
  intro i hi
  simp only [secondOfTwoPadding, blockAt, Vector.getElem_ofFn, Nat.zero_add]
  split
  · next h56 =>
    rw [List.getD_append _ _ _ _ (by rwa [length_zeros]), getD_zeros]
  · next h56 =>
    rw [List.getD_append_right _ _ _ _ (by rw [length_zeros]; omega), length_zeros, getD_len8 _ (by omega)]

/-- The padding of the bytes the buffer holds, as one sequence, is FINALIZE's one or two blocks (rules R92 to R94). -/
theorem blocksOf_padding (s : State) :
    blocksOf (s.validBytes ++ [0x80] ++ zeros (padZeros s.bufLen.toNat) ++ len8 s.bitlen) =
      if s.bufLen.toNat ≤ 55 then [oneBlockPadding s] else [firstOfTwoPadding s, secondOfTwoPadding s.bitlen] := by
  have hl := bufLen_lt s
  rw [padZeros_eq, Nat.mod_eq_of_lt hl]
  split
  · next h => rw [blocksOf_one (by simp; omega), oneBlockPadding_eq h]
  · next h =>
    have hz : zeros (119 - s.bufLen.toNat) = zeros (63 - s.bufLen.toNat) ++ zeros 56 := by
      simp only [zeros, List.replicate_append_replicate]; congr 1; omega
    rw [hz, ← List.append_assoc, List.append_assoc, blocksOf_append_whole (k := 1) (by simp; omega),
      blocksOf_one (by simp; omega), blocksOf_one (by simp), firstOfTwoPadding_eq, secondOfTwoPadding_eq]
    rfl

/-- FINALIZE's one or two transforms, on the padding of the bytes the buffer holds as one sequence (rules R92 to
R94). -/
theorem finalState_eq (s : State) :
    finalState s = foldTransform s.H (blocksOf
      (s.validBytes ++ [0x80] ++ zeros (padZeros s.bufLen.toNat) ++ len8 s.bitlen)) := by
  rw [blocksOf_padding]
  unfold finalState
  split <;> rfl

/-- What a command can do. -/
theorem exec_cases {i : Instr} {s t : State} (h : exec i s = .next t) :
    (i = .init ∧
      t = { s with H := hInit, bitlen := 0, bufLen := 0, lenOvf := false, phase := .empty, rsp := some .ok })
    ∨ (i = .reserved ∧ t = { s with rsp := some .invalidCommand })
    ∨ ((i = .finalize ∨ ∃ d, i = .update d) ∧ s.phase = .finalized ∧ t = { s with rsp := some .invalidState })
    ∨ (∃ d, i = .update d ∧ s.phase ≠ .finalized ∧ t = updated d s)
    ∨ (i = .finalize ∧ s.phase ≠ .finalized ∧ t = finalizedState s) := by
  cases i with
  | init => rw [exec_init] at h; exact .inl ⟨rfl, (Host.Outcome.next.inj h).symm⟩
  | reserved => rw [exec_reserved] at h; exact .inr (.inl ⟨rfl, (Host.Outcome.next.inj h).symm⟩)
  | update d =>
    by_cases hp : s.phase = .finalized
    · rw [exec_update_refused hp] at h
      exact .inr (.inr (.inl ⟨.inr ⟨d, rfl⟩, hp, (Host.Outcome.next.inj h).symm⟩))
    · rw [exec_update hp] at h
      exact .inr (.inr (.inr (.inl ⟨d, rfl, hp, (Host.Outcome.next.inj h).symm⟩)))
  | finalize =>
    by_cases hp : s.phase = .finalized
    · rw [exec_finalize_refused hp] at h
      exact .inr (.inr (.inl ⟨.inl rfl, hp, (Host.Outcome.next.inj h).symm⟩))
    · rw [exec_finalize hp] at h
      exact .inr (.inr (.inr (.inr ⟨rfl, hp, (Host.Outcome.next.inj h).symm⟩)))

/-- What a step can do. -/
theorem step_cases {s t : State} (h : step s = .next t) :
    (s.input = [] ∧ t = s)
    ∨ (∃ w rest, s.input = .command w :: rest ∧ exec (decodeWord w) { s with input := rest } = .next t)
    ∨ (∃ rest, (s.input = .reset :: rest ∨ ∃ w, s.input = .resetDuring w :: rest)
        ∧ t = hostReset { s with input := rest }) := by
  unfold step at h
  split at h
  · next hi => exact .inl ⟨hi, (Host.Outcome.next.inj h).symm⟩
  · next w rest hi => exact .inr (.inl ⟨w, rest, hi, h⟩)
  · next rest hi => exact .inr (.inr ⟨rest, .inl hi, (Host.Outcome.next.inj h).symm⟩)
  · next w rest hi => exact .inr (.inr ⟨rest, .inr ⟨w, hi⟩, (Host.Outcome.next.inj h).symm⟩)

end Sys2Proof.Machine
end

