-- ==== Sys2Proof/Laws/PerInstr.lean ====
section
/-! SUPPORT. Statements about every instruction as syntax, one lemma for each constructor. -/

namespace Sys2Proof.Laws.EncodingMatchesTable

/-- The instruction is well-formed and its word is covered by exactly one row of the opcode map, its own (rule R48). -/
def Statement (i : Instr) : Prop :=
  i.wellFormed = true ∧ (opcodeTable.filter fun r => r.covers (encode i)).map OpcodeRow.mnemonic = [i.mnemonic]

theorem init : Statement .init := by unfold Statement; decide +kernel

theorem update (data : Byte) : Statement (.update data) := by
  revert data
  unfold Statement
  decide +kernel

theorem finalize : Statement .finalize := by unfold Statement; decide +kernel

theorem reserved : Statement .reserved := by unfold Statement; decide +kernel

end Sys2Proof.Laws.EncodingMatchesTable
end

