-- ==== Sys2Proof/Laws/Run.lean ====
section
/-! SUPPORT. Every command answers; what the response port and the host's inputs have to do with a command; sequences
of commands, as a fold and as steps of the machine; the bytes a core has absorbed (rules R39, R46, R103). -/

namespace Sys2Proof.Machine

/-- A command has a next state, with a response, and leaves the host's inputs alone. -/
theorem exec_answers (i : Instr) (s : State) : ∃ t r, exec i s = .next t ∧ t.rsp = some r ∧ t.input = s.input := by
  cases i with
  | init => exact ⟨_, _, rfl, rfl, rfl⟩
  | reserved => exact ⟨_, _, rfl, rfl, rfl⟩
  | update d =>
    by_cases h : s.phase = .finalized
    · exact ⟨_, _, exec_update_refused h d, rfl, rfl⟩
    · exact ⟨_, _, exec_update h d, rfl, updated_input d s⟩
  | finalize =>
    by_cases h : s.phase = .finalized
    · exact ⟨_, _, exec_finalize_refused h, rfl, rfl⟩
    · exact ⟨_, _, exec_finalize h, rfl, rfl⟩

/-- An accepted UPDATE does not look at the response port or the host's inputs. -/
theorem updated_withPorts (d : Byte) (s : State) (r : Option Response) (is : List HostInput) :
    updated d { s with rsp := r, input := is } = { updated d s with input := is } := by
  by_cases h : s.bufLen = 63
  · have e := advanceBuffer_full (s := storeByte d (countByte s)) h
    have e' := advanceBuffer_full (s := storeByte d (countByte { s with rsp := r, input := is })) h
    rw [updated, updated, e, e']
    rfl
  · have e := advanceBuffer_partial (s := storeByte d (countByte s)) h
    have e' := advanceBuffer_partial (s := storeByte d (countByte { s with rsp := r, input := is })) h
    rw [updated, updated, e, e']
    rfl

/-- A command does not look at the response port or the host's inputs. -/
theorem exec_withPorts {i : Instr} {s t : State} (h : exec i s = .next t) (r : Option Response) (is : List HostInput) :
    exec i { s with rsp := r, input := is } = .next { t with input := is } := by
  rcases exec_cases h with ⟨rfl, rfl⟩ | ⟨rfl, rfl⟩ | ⟨hi, hp, rfl⟩ | ⟨d, rfl, hp, rfl⟩ | ⟨rfl, hp, rfl⟩
  · rfl
  · rfl
  · rcases hi with rfl | ⟨d, rfl⟩
    · rw [exec_finalize_refused (by exact hp)]
    · rw [exec_update_refused (by exact hp)]
  · rw [exec_update (by exact hp), updated_withPorts]
  · rw [exec_finalize (by exact hp)]
    rfl

theorem runCommands_cons {i : Instr} {is : List Instr} {s t u : State} {r : Response} {rs : List Response}
    (h : exec i s = .next t) (hr : t.rsp = some r) (h' : runCommands is t = some (u, rs)) :
    runCommands (i :: is) s = some (u, r :: rs) := by
  simp only [runCommands, h, hr, h']

/-- A sequence of commands in two parts. -/
theorem runCommands_append (is js : List Instr) (s : State) :
    runCommands (is ++ js) s =
      (runCommands is s).bind fun p => (runCommands js p.1).map fun q => (q.1, p.2 ++ q.2) := by
  induction is generalizing s with
  | nil => simp [runCommands]
  | cons i is ih =>
    obtain ⟨t, r, h, hr, _⟩ := exec_answers i s
    simp only [List.cons_append, runCommands, h, hr, ih]
    cases runCommands is t with
    | none => simp
    | some p =>
      simp only [Option.bind_some]
      cases runCommands js p.1 <;> simp

/-- One step more of the machine. -/
theorem core_run_succ {s t : State} (h : step s = .next t) (n : Nat) :
    Host.Core.run core (n + 1) s = Host.Core.run core n t := by
  have h : core.step s = .next t := h
  rw [Host.Core.run.eq_2 core s n, h]

theorem validBytes_of_empty {s : State} (h : s.bufLen = 0) : s.validBytes = [] := by
  rw [← List.length_eq_zero_iff, length_validBytes, h]
  rfl

/-- What a core that is not finalized holds of the bytes it has absorbed (rules R15, R23). -/
theorem absorbed_facts {M : List Byte} {s : State} (h : s.Absorbed M) (hp : s.phase ≠ .finalized) :
    s.bufLen.toNat = M.length % 64 ∧ s.H = foldTransform hInit (blocksOf M) ∧ s.validBytes = leftover M := by
  obtain ⟨-, -, h⟩ := h
  cases hs : s.phase with
  | empty =>
    rw [hs] at h
    obtain ⟨rfl, h1, h2⟩ := h
    refine ⟨by simp [h2], by rw [h1, blocksOf_short (by simp), foldTransform_nil], ?_⟩
    rw [validBytes_of_empty h2, leftover_short (by simp)]
  | accumulating =>
    rw [hs] at h
    obtain ⟨-, h1, h2⟩ := h
    exact ⟨by rw [← length_validBytes, h2, length_leftover], h1, h2⟩
  | finalized => exact absurd hs hp

theorem padZeros_mod (L : Nat) : padZeros (L % 64) = padZeros L := by
  rw [padZeros_eq, padZeros_eq, Nat.mod_mod]

/-- The blocks of the padded message: those transformed before FINALIZE, then FINALIZE's own (rules R93, R94, R103). -/
theorem blocksOf_padMessage {M : List Byte} {s : State} (h : s.Absorbed M) (hp : s.phase ≠ .finalized) :
    blocksOf (padMessage M) = blocksOf M
      ++ if s.bufLen.toNat ≤ 55 then [oneBlockPadding s] else [firstOfTwoPadding s, secondOfTwoPadding s.bitlen] := by
  obtain ⟨h1, -, h3⟩ := absorbed_facts h hp
  have e := blocksOf_append M ([0x80] ++ zeros (padZeros M.length) ++ len8 (BitVec.ofNat 64 (8 * M.length)))
  simp only [← List.append_assoc] at e
  rw [← blocksOf_padding, padMessage, e, h1, h3, h.1, padZeros_mod]

/-- FINALIZE transforms the padding of what is buffered; over the whole message that is the digest state (rule
R103). -/
theorem finalState_of_absorbed {M : List Byte} {s : State} (h : s.Absorbed M) (hp : s.phase ≠ .finalized) :
    finalState s = digestState M := by
  rw [finalState_eq, blocksOf_padding, digestState, blocksOf_padMessage h hp, foldTransform_append,
    (absorbed_facts h hp).2.1]

end Sys2Proof.Machine
end

