-- ==== Sys2Proof/Laws/Schedule.lean ====
section
/-! SUPPORT. The message schedule and the rounds, read by index (rules R68, R69, R75, R78). -/

namespace Sys2Proof.Machine

@[simp] theorem length_loadSchedule (B : Block) : (loadSchedule B).length = 16 := by simp [loadSchedule]

theorem getD_loadSchedule (B : Block) {i : Nat} (h : i < 16) :
    (loadSchedule B).getD i 0 = be32 B[4 * i] B[4 * i + 1] B[4 * i + 2] B[4 * i + 3] := by
  rw [loadSchedule, List.getD_eq_getElem?_getD, List.getElem?_ofFn, dif_pos h]
  rfl

@[simp] theorem length_expandSchedule (n : Nat) (w : List Word) : (expandSchedule n w).length = w.length + n := by
  induction n generalizing w with
  | zero => rfl
  | succ n ih => rw [expandSchedule, ih]; simp; omega

theorem getD_expandSchedule_of_lt (n : Nat) {w : List Word} {t : Nat} (h : t < w.length) :
    (expandSchedule n w).getD t 0 = w.getD t 0 := by
  induction n generalizing w with
  | zero => rfl
  | succ n ih => rw [expandSchedule, ih (by simp; omega), List.getD_append _ _ _ _ h]

/-- The recurrence, for every word that the expansion added. -/
theorem getD_expandSchedule (n : Nat) {w : List Word} (hw : 16 ≤ w.length) {t : Nat} (h : w.length ≤ t)
    (ht : t < w.length + n) :
    (expandSchedule n w).getD t 0 =
      rotl32 ((expandSchedule n w).getD (t - 3) 0 ^^^ (expandSchedule n w).getD (t - 8) 0
        ^^^ (expandSchedule n w).getD (t - 14) 0 ^^^ (expandSchedule n w).getD (t - 16) 0) 1 := by
  induction n generalizing w with
  | zero => omega
  | succ n ih =>
    rw [expandSchedule]
    by_cases he : t = w.length
    · subst he
      have hp : ∀ k, 0 < k → k ≤ 16 →
          (expandSchedule n (w ++ [nextScheduleWord w])).getD (w.length - k) 0 = w.getD (w.length - k) 0 := by
        intro k hk hk'
        rw [getD_expandSchedule_of_lt n (by rw [List.length_append, List.length_singleton]; omega),
          List.getD_append _ _ _ _ (by omega)]
      rw [hp 3 (by omega) (by omega), hp 8 (by omega) (by omega), hp 14 (by omega) (by omega),
        hp 16 (by omega) (by omega), getD_expandSchedule_of_lt n (by simp),
        List.getD_append_right _ _ _ _ (le_refl _)]
      simp [nextScheduleWord]
    · exact ih (by rw [List.length_append]; omega) (by rw [List.length_append, List.length_singleton]; omega)
        (by rw [List.length_append, List.length_singleton]; omega)

@[simp] theorem length_schedule (B : Block) : (schedule B).length = 80 := by simp [schedule]

/-- Rounds one after the other: the second part of the words continues where the first part ends. -/
theorem runRounds_append (t : Nat) (xs ys : List Word) (v : Chain) :
    runRounds t (xs ++ ys) v = runRounds (t + xs.length) ys (runRounds t xs v) := by
  induction xs generalizing t v with
  | nil => rfl
  | cons x xs ih => rw [List.cons_append, runRounds, runRounds, ih, List.length_cons]; congr 1; omega

@[simp] theorem length_ringStep (t : Nat) (ring : List Word) : (ringStep t ring).length = ring.length := by
  unfold ringStep; split <;> simp

end Sys2Proof.Machine
end

