-- ==== Sys2Proof/Tests/Slice0.lean ====
section
/-! SUPPORT. The model's own tests. Expected values come from spec/95_test_vectors.md (the row is named before each
test) or from the worked examples of the rules; words are written out from rule R48. -/

namespace Sys2Proof.Tests

open Sys2Proof.Machine

/-! ### WellFormed: one ill-formed term for each check -/

theorem test_word_of_eleven_bits_is_ill_formed : wordWellFormed 1024 = false := by decide
theorem test_byte_operand_256_is_ill_formed : (ByteOperand.hex 256).wellFormed = false := by decide
theorem test_character_beyond_ascii_is_ill_formed : (ByteOperand.chr (Char.ofNat 233)).wellFormed = false := by decide
theorem test_update_of_256_is_ill_formed : (SourceLine.update (.hex 256)).wellFormed = false := by decide
theorem test_chunk_with_256_is_ill_formed : (SourceLine.updateChunk [.hex 1, .hex 256]).wellFormed = false := by decide
theorem test_text_beyond_ascii_is_ill_formed : (SourceLine.updateText [Char.ofNat 233]).wellFormed = false := by decide
theorem test_digest_with_256_is_ill_formed : (SourceLine.digest [.hex 256]).wellFormed = false := by decide
theorem test_every_data_byte_is_well_formed : (Instr.update 0xFF).wellFormed = true := by decide

/-! ### Decode: words written out bit by bit from rule R48 -/

theorem test_decode_init : decodeWord 0b0000000000 = .init := by decide
theorem test_decode_update_a : decodeWord 0b0101100001 = .update 0x61 := by decide
theorem test_decode_update_data_bits : decodeWord 0b0110000000 = .update 0x80 := by decide
theorem test_decode_finalize : decodeWord 0b1000000000 = .finalize := by decide
theorem test_decode_reserved : decodeWord 0b1100000000 = .reserved := by decide
/-- Rows E4, E7, E8: `data` is ignored. -/
theorem test_decode_ignores_data :
    decodeWord 0x3FF = .reserved ∧ decodeWord 0x0FF = .init ∧ decodeWord 0x2A5 = .finalize := by decide
theorem test_decode_table_word : decodeTableWord 16 0x161 = some (.update 0x61) := by decide
theorem test_decode_table_word_refuses_eleven_bits : decodeTableWord 16 0x400 = none := by decide
theorem test_decode_refuses_by_name : decode 0x400 = .error (.notTenBits 0x400) := by rfl

/-! ### The assembler (rules R55 to R57) -/

theorem test_hex_of_update_a : wordHex (encode (.update 0x61)) = ['1', '6', '1'] := by decide
theorem test_line_update_character :
    parseLine ['U', 'P', 'D', 'A', 'T', 'E', ' ', Char.ofNat 39, 'a', Char.ofNat 39] = some (.update (.chr 'a')) := by
  decide +kernel
theorem test_line_update_hex_comment :
    parseLine ['U', 'P', 'D', 'A', 'T', 'E', ' ', '0', 'x', 'D', 'e', Char.ofNat 35, '!'] = some (.update (.hex 0xDE)) := by
  decide +kernel
theorem test_line_digest :
    expandLine (.digest [.chr 'a', .chr 'b', .chr 'c'])
      = [.command 0x000, .command 0x161, .command 0x162, .command 0x163, .command 0x200] := by decide
theorem test_reset_line : assemble [['R', 'E', 'S', 'E', 'T']] = some [.reset] := by decide +kernel
theorem test_wrong_line : assemble [['I', 'N', 'I', 'T'], ['H', 'A', 'S', 'H']] = none := by decide +kernel

/-! ### The transform's primitives (section 2.4) -/

/-- Rows A1, A3, A4, A5, A6. -/
theorem test_rotl32 :
    rotl32 0x80000000 1 = 0x00000001 ∧ rotl32 0x00000004 30 = 0x00000001 ∧ rotl32 0xF8000000 5 = 0x0000001F
      ∧ rotl32 0x67452301 5 = 0xE8A4602C ∧ rotl32 0xEFCDAB89 30 = 0x7BF36AE2 := by decide
/-- Row A10. -/
theorem test_be32 : be32 0x61 0x62 0x63 0x80 = 0x61626380 := by decide
/-- Rows F3, F4, F6. -/
theorem test_stage_functions :
    stageSelect 0xF0F0F0F0 0x12345678 0x9ABCDEF0 = 0x1A3C5E70 ∧ stageXor 0xF0F0F0F0 0x12345678 0x9ABCDEF0 = 0x78787878
      ∧ stageMajority 0xF0F0F0F0 0x12345678 0x9ABCDEF0 = 0x92B4D6F0 := by decide
/-- Rows Q1 to Q5. -/
theorem test_round_constants :
    [19, 20, 39, 40, 59, 60, 79].map roundConstant
      = [0x5A827999, 0x6ED9EBA1, 0x6ED9EBA1, 0x8F1BBCDC, 0x8F1BBCDC, 0xCA62C1D6, 0xCA62C1D6] := by decide
/-- Rule R75's and rule R76's example, round 0 of the "abc" block. -/
theorem test_round_0_of_abc :
    roundStep 0 0x61626380 hInit = ⟨0x0116FC33, 0x67452301, 0x7BF36AE2, 0x98BADCFE, 0x10325476⟩ := by decide

/-- The bytes `00 01 … 3F`. -/
def countingBlock : Block := Vector.ofFn fun p : Fin 64 => BitVec.ofNat 8 p.val

/-- Row T5's schedule words. -/
theorem test_schedule_of_counting_block :
    [0, 15, 16, 19, 76, 79].map (fun t => (schedule countingBlock).getD t 0)
      = [0x00010203, 0x3C3D3E3F, 0x38383838, 0x181A1C1E, 0x5442DCCA, 0xC47818A4] := by decide +kernel
/-- Row T5. -/
theorem test_transform_of_counting_block :
    transform hInit countingBlock = ⟨0xB9AC757B, 0xBC297925, 0x2E227274, 0x06872F94, 0xCBEA56A1⟩ := by decide +kernel

/-! ### The commands (sections 3, 5, 6) -/

/-- The field `f` of the next state, none where there is none. -/
def after (r : Host.Outcome State Fault Refusal) (α : Type) (f : State → α) : Option α :=
  match r with
  | .next t => some (f t)
  | _ => none

/-- A core in phase Accumulating with `n` bytes `b` in the buffer. -/
def filled (H : Chain) (b : Byte) (n : Nat) (bitlen : BitVec 64) : State :=
  { State.reset with
    H := H, phase := .accumulating, bitlen := bitlen, bufLen := BitVec.ofNat 6 n
    buf := (List.range n).map fun p => (p, b) }

/-- A core in phase Finalized that holds the digest of "abc". -/
def abcDone : State :=
  { State.reset with
    H := ⟨0xA9993E36, 0x4706816A, 0xBA3E2571, 0x7850C26C, 0x9CD0D89D⟩, bitlen := 0x18, phase := .finalized
    rsp := some .ok }

/-- The state of row L3. -/
def wrapState : State := filled ⟨1, 2, 3, 4, 5⟩ 0x11 63 0xFFFFFFFFFFFFFFF8

/-- Row V1, rule R86's example. -/
theorem test_init_after_abc :
    after (exec .init abcDone) _ (fun t => (t.H, t.bitlen, t.phase, t.rsp, t.digest))
      = some (hInit, 0, .empty, some .ok, 0) := by decide
/-- Row V2. -/
theorem test_update_first_byte :
    after (exec (.update 0x61) State.reset) _ (fun t => (t.buf, t.bufLen, t.bitlen, t.status, t.rsp))
      = some ([(0, 0x61)], 1, 8, 0b001, some .ok) := by decide
/-- Row L3: the wrap, the flag and the transform of row T6. -/
theorem test_update_wraps_and_transforms :
    after (exec (.update 0xAB) wrapState) _ (fun t => (t.bitlen, t.bufLen, t.H, t.status, t.rsp))
      = some (0, 0, ⟨0x53620622, 0x1C56BDF9, 0x68A0FFD6, 0xD91E5B3A, 0xAEAE41E2⟩, 0b101, some .ok) := by
  decide +kernel
/-- Row L1: the byte order and the width of the length field. -/
theorem test_finalize_length_field :
    after (exec .finalize (filled hInit 0 0 0x0123456789ABCE00)) _ (fun t => (t.digest, t.phase, t.bitlen, t.rsp))
      = some (0x12b40f74bc742680b9b2dfe0bea62e998257826a, .finalized, 0x0123456789ABCE00, some .ok) := by decide +kernel
/-- Section 4, `L = 56`: two padded blocks. -/
theorem test_finalize_two_blocks :
    after (exec .finalize (filled hInit 0x61 56 0x1C0)) _ (fun t => (t.digest, t.bufLen, t.digestValid))
      = some (0xc2db330f6083854c99d4b5bfb6e8f29f201be699, 0, 1) := by decide +kernel
/-- Section 4, `L = 55`: the last one-block case. -/
theorem test_finalize_one_block_full :
    after (exec .finalize (filled hInit 0x61 55 0x1B8)) _ (fun t => t.digest)
      = some 0xc1c8bbdc22796e28c0e15163d20899b65621d65a := by decide +kernel
/-- Row E1. -/
theorem test_update_after_finalize : exec (.update 0x64) abcDone = .next { abcDone with rsp := some .invalidState } := by
  rfl
/-- Row E2. -/
theorem test_finalize_twice : exec .finalize abcDone = .next { abcDone with rsp := some .invalidState } := by rfl
/-- Row E3: decoding comes before the phase check. -/
theorem test_reserved_after_finalize : exec .reserved abcDone = .next { abcDone with rsp := some .invalidCommand } := by
  rfl

/-! ### Steps -/

/-- The host's fetch word is what the next step runs (row V2). -/
theorem test_step_runs_the_fetch_word :
    after (step (State.reset.withFetchWord 16 0x161)) _ (fun t => (t.buf, t.input, t.rsp))
      = some ([(0, 0x61)], [], some .ok) := by decide
theorem test_step_without_input : after (step abcDone) _ (fun t => t) = some abcDone := by decide
theorem test_step_reset : after (step { abcDone with input := [.reset] }) _ (fun t => (t.H, t.phase, t.rsp, t.digest))
      = some (hInit, .empty, none, 0) := by decide

/-! ### The sizes of rule R4 -/

theorem test_sizes :
    (schedule countingBlock).length = Config.schedWords ∧ (serialize hInit).length = Config.digestBytes
      ∧ countingBlock.toList.length = Config.blockBytes ∧ (2 : Nat) ^ Config.lenBits = 2 ^ 64
      ∧ (63#6).toNat = Config.maxCarry ∧ (2 : Nat) ^ Config.cmdBits = 1024
      ∧ (List.range Config.stateWords).map (chainWord hInit)
          = [0x67452301, 0xEFCDAB89, 0x98BADCFE, 0x10325476, 0xC3D2E1F0] := by decide +kernel

/-! ### Witnesses: for each statement with hypotheses, a state and operands that meet them together -/

theorem witness_DecodeOfEncode : 10 ≤ 16 ∧ Instr.update 0x61 = .update 0x61 := by decide
theorem witness_WiderWordsAreRejected : 2 ^ 10 ≤ 1024 ∧ 1023 < 2 ^ 10 := by decide
theorem witness_HostResetFromEveryState :
    ({ abcDone with input := [.reset, .command 0x161] } : State).input = .reset :: [.command 0x161]
      ∧ ∃ w, ({ abcDone with input := [.resetDuring 0x200] } : State).input = .resetDuring w :: [] :=
  ⟨rfl, 0x200, rfl⟩
theorem witness_StepRunsTheDecodedCommand :
    ({ abcDone with input := [.command 0x3FF] } : State).input = .command 0x3FF :: [] := rfl
theorem witness_StepWithoutInputDoesNothing : State.reset.input = [] := rfl
theorem witness_CommandsRunInOrder :
    ({ abcDone with input := [.command 0x000, .command 0x161, .reset] } : State).input
      = commandInputs [.init, .update 0x61] ++ [.reset] := by decide

/-- A reset state, in phase Empty, is that of the empty message. -/
theorem witness_absorbed_nothing : State.reset.Absorbed [] ∧ State.reset.phase ≠ .finalized :=
  ⟨⟨rfl, rfl, rfl, rfl, rfl⟩, by decide⟩
/-- The state of row V2 is that of the message of one byte. -/
theorem witness_absorbed_one_byte :
    State.Absorbed [0x61] (filled hInit 0x61 1 8) ∧ (filled hInit 0x61 1 8).phase ≠ .finalized :=
  ⟨⟨rfl, rfl, by decide, rfl, by decide⟩, by decide⟩
theorem witness_invariant_in_Empty : State.reset.Inv ∧ State.reset.phase = .empty :=
  ⟨⟨by decide, fun p hp => absurd hp (by simp [State.reset]), [], witness_absorbed_nothing.1⟩, rfl⟩

/-- The last clause of InitResult: INIT in phase Finalized has a next state outside it. -/
theorem witness_InitResult_leaves_Finalized :
    abcDone.phase = .finalized ∧ ∃ t, exec .init abcDone = .next t ∧ t.phase ≠ .finalized :=
  ⟨rfl, _, rfl, by decide⟩
/-- UpdateResult at both ends of the buffer and beside them: positions 0, 62 and 63. -/
theorem witness_UpdateResult :
    State.reset.phase ≠ .finalized ∧ State.reset.storePosition ≠ 63
      ∧ (filled hInit 0x61 62 0x1F0).phase ≠ .finalized ∧ (filled hInit 0x61 62 0x1F0).storePosition ≠ 63
      ∧ wrapState.phase ≠ .finalized ∧ wrapState.storePosition = 63 := by decide
theorem witness_UpdateRefusedWhenFinalized : abcDone.phase = .finalized := rfl
theorem witness_UpdateChunkMatchesSoftwareUpdate :
    State.reset.phase ≠ .finalized ∧ ([0x61] : List Byte) ≠ [] ∧ abcDone.phase = .finalized := by decide
theorem witness_ChunkingInvariance : ([[0x61], [], [0x62, 0x63]] : List (List Byte)).flatten = [0x61, 0x62, 0x63] := rfl
/-- FinalizeResult, OnePaddingBlock, TwoPaddingBlocks and LengthFieldIsBigEndian at the boundary, 55 and 56. -/
theorem witness_FinalizeResult :
    (filled hInit 0x61 55 0x1B8).phase ≠ .finalized ∧ (filled hInit 0x61 55 0x1B8).bufLen.toNat ≤ 55
      ∧ (filled hInit 0x61 56 0x1C0).phase ≠ .finalized ∧ 56 ≤ (filled hInit 0x61 56 0x1C0).bufLen.toNat := by decide
/-- The positions of OnePaddingBlock (5 bytes buffered) and of TwoPaddingBlocks (56). -/
theorem witness_padding_positions :
    (4 : Fin 64).val < (filled hInit 0x61 5 40).bufLen.toNat ∧ (5 : Fin 64).val = (filled hInit 0x61 5 40).bufLen.toNat
      ∧ (filled hInit 0x61 5 40).bufLen.toNat < (55 : Fin 64).val
      ∧ (56 : Fin 64).val = (filled hInit 0x61 56 0x1C0).bufLen.toNat
      ∧ (filled hInit 0x61 56 0x1C0).bufLen.toNat < (57 : Fin 64).val ∧ (55 : Fin 64).val ≤ 55 := by decide
theorem witness_LengthFieldIsBigEndian :
    (filled hInit 0x61 55 0x1B8).bufLen.toNat ≤ 55 ∧ 56 ≤ (filled hInit 0x61 56 0x1C0).bufLen.toNat := by decide
theorem witness_SecondFinalizeIsRefused :
    abcDone.phase = .finalized ∧ State.reset.phase ≠ .finalized ∧ ∃ t, exec .finalize State.reset = .next t :=
  ⟨rfl, by decide, _, rfl⟩
theorem witness_RefusedCommandChangesNothing :
    exec .finalize abcDone = .next { abcDone with rsp := some .invalidState } ∧ Response.invalidState.isError = true
      ∧ exec .reserved State.reset = .next { State.reset with rsp := some .invalidCommand }
      ∧ Response.invalidCommand.isError = true := ⟨rfl, rfl, rfl, rfl⟩
/-- LengthOverflowFlagIsSticky: a set flag and a command other than INIT, and an addition that carries. -/
theorem witness_LengthOverflowFlagIsSticky :
    (∃ t, exec .reserved { wrapState with lenOvf := true } = .next t) ∧ (∃ t, exec .init wrapState = .next t)
      ∧ wrapState.phase ≠ .finalized ∧ 2 ^ 64 ≤ wrapState.bitlen.toNat + 8 :=
  ⟨⟨_, rfl⟩, ⟨_, rfl⟩, by decide, by decide⟩
/-- The state of a core that has absorbed `M`, for a message that leaves 63 bytes buffered. -/
def absorbing (M : List Byte) : State :=
  { State.reset with
    H := foldTransform hInit (blocksOf M), bitlen := BitVec.ofNat 64 (8 * M.length), phase := .accumulating
    bufLen := 63, buf := (List.range 63).map fun p => (p, (leftover M).getD p 0) }

theorem absorbing_absorbed (M : List Byte) (hm : M.length % 64 = 63) (hl : M.length < 2 ^ 61) :
    (absorbing M).Absorbed M := by
  refine ⟨rfl, (decide_eq_false (by omega)).symm, ?_, rfl, ?_⟩
  · intro h
    rw [h] at hm
    simp at hm
  · have hL : (leftover M).length = 63 := by
      rw [leftover, List.length_drop]
      omega
    have key : ∀ (f : Nat → Byte) (q : Nat), q < 63 →
        Memory.read ((List.range 63).map fun p => (p, f p)) q = some (f q) := by
      intro f q hq
      interval_cases q <;> rfl
    apply List.ext_getElem
    · rw [hL]
      rfl
    · intro p h1 h2
      have e : (leftover M)[p] = (leftover M).getD p 0 := by
        rw [List.getD_eq_getElem?_getD, List.getElem?_eq_getElem h2, Option.getD_some]
      rw [e]
      simp [absorbing, State.validBytes, memRead, State.bufByte, key _ p (hL ▸ h2)]

theorem message_of_length (n : Nat) : ∃ M : List Byte, M.length = n := ⟨List.replicate n 0, List.length_replicate⟩

/-- CounterWrapsAtByte2Pow61: a message of one byte is below the bound, and one of `2^61 - 1` bytes exists, with a state
that has absorbed it. -/
theorem witness_CounterWrapsAtByte2Pow61 :
    ([0x61] : List Byte).length + 1 < 2 ^ 61
      ∧ ∃ (M : List Byte) (s : State), s.Absorbed M ∧ s.phase ≠ .finalized ∧ M.length + 1 = 2 ^ 61 := by
  refine ⟨by decide, ?_⟩
  obtain ⟨M, hM⟩ := message_of_length (2 ^ 61 - 1)
  exact ⟨M, absorbing M, absorbing_absorbed M (by omega) (by omega), by simp [absorbing], by omega⟩

/-- WritersOfRunningState: UPDATE at position 63 and beside it, FINALIZE with 55 and with 56 bytes, phase Finalized. -/
theorem witness_WritersOfRunningState :
    (wrapState.phase ≠ .finalized ∧ wrapState.bufLen = 63) ∧ (filled hInit 0x61 62 0x1F0).bufLen ≠ 63
      ∧ (filled hInit 0x61 55 0x1B8).bufLen.toNat ≤ 55 ∧ ¬(filled hInit 0x61 56 0x1C0).bufLen.toNat ≤ 55
      ∧ abcDone.phase = .finalized := by decide
/-- MixedWidthViewsAgree: the last padded block at the boundary, 55 and 56, and a core in phase Finalized. -/
theorem witness_MixedWidthViewsAgree :
    (filled hInit 0x61 55 0x1B8).bufLen.toNat ≤ 55 ∧ 56 ≤ (filled hInit 0x61 56 0x1C0).bufLen.toNat
      ∧ abcDone.phase = .finalized := by decide
/-- NumberOfTransforms: a core that has absorbed 63 bytes, so that UPDATE completes a block and FINALIZE takes two, and one
that has absorbed one byte, so that FINALIZE takes one. -/
theorem witness_NumberOfTransforms :
    (absorbing (List.replicate 63 0x61)).Absorbed (List.replicate 63 0x61)
      ∧ (absorbing (List.replicate 63 0x61)).phase ≠ .finalized ∧ (absorbing (List.replicate 63 0x61)).bufLen = 63
      ∧ State.Absorbed [0x61] (filled hInit 0x61 1 8) ∧ (filled hInit 0x61 1 8).bufLen.toNat ≤ 55 :=
  ⟨absorbing_absorbed _ (by simp) (by simp), by simp [absorbing], rfl, witness_absorbed_one_byte.1, by decide⟩
theorem witness_RunningStateIsHidden : State.reset.phase ≠ .finalized ∧ abcDone.phase = .finalized := by decide
theorem witness_DigestPortBytes : abcDone.phase = .finalized ∧ State.reset.phase ≠ .finalized := by decide
theorem witness_DigestIsImmutable :
    abcDone.phase = .finalized ∧ Instr.init ∉ [Instr.update 0x64, .finalize, .reserved] := by decide
/-- StaleBytesAreNeverRead: two states that differ in a byte at a position `>= buf_len`. -/
theorem witness_StaleBytesAreNeverRead :
    State.SameButStale { State.reset with buf := [(5, 0x11)] } { State.reset with buf := [(5, 0x22)] }
      ∧ ({ State.reset with buf := [(5, 0x11)] } : State) ≠ { State.reset with buf := [(5, 0x22)] } :=
  ⟨⟨rfl, rfl, rfl, rfl, rfl, rfl, rfl, rfl⟩, by decide⟩
theorem witness_CoresAreIndependent : (0 : Nat) ≠ 1 := by decide
/-- RotateLeftBits at the ends of its ranges. -/
theorem witness_RotateLeftBits : 0 < 1 ∧ 31 < 32 ∧ 0 < 32 := by decide
theorem witness_ScheduleRecurrence : 16 ≤ 16 ∧ 16 < 80 ∧ 79 < 80 := by decide
/-- StageFunctionsAndConstants at both ends of each range. -/
theorem witness_StageFunctionsAndConstants :
    0 < 20 ∧ 19 < 20 ∧ 20 ≤ 20 ∧ 39 < 40 ∧ 40 ≤ 40 ∧ 59 < 60 ∧ 60 ≤ 60 ∧ 79 < 80 := by decide
theorem witness_StageFunctionsBitwise : 0 < 32 ∧ 31 < 32 := by decide
theorem witness_TransformIsEightyRounds : 0 < 80 ∧ 79 < 80 := by decide
theorem witness_StepKeepsInvariant :
    State.Inv { State.reset with input := [.command 0x161] }
      ∧ ∃ t, step { State.reset with input := [.command 0x161] } = .next t :=
  ⟨⟨by decide, fun p hp => absurd hp (by simp [State.reset]), [], rfl, rfl, rfl, rfl, rfl⟩, _, rfl⟩
theorem witness_ReachedStatesHaveStateFacts :
    ∃ t, Host.Core.run core 1 { State.reset with input := [.command 0x161] } = .next t := ⟨_, rfl⟩
theorem witness_InvariantGivesStateFacts : State.reset.Inv := witness_invariant_in_Empty.1
theorem witness_DigestOfEveryMessage :
    ({ abcDone with input := [.command 0x000, .command 0x161, .command 0x200] } : State).input
      = commandInputs (digestCommands [0x61]) ++ [] := by decide

end Sys2Proof.Tests
end

section
/-! The state a core is in after some bytes (rules R23, R104): what UPDATE, FINALIZE, INIT and reset make of
`State.Absorbed` and of `State.Inv`, and that every step keeps `State.Inv`. -/

namespace Sys2Proof.Machine

/-! ### What a core has absorbed -/

/-- In phase Empty a core has absorbed nothing, and every register has its reset value. -/
theorem absorbed_iff_of_empty {s : State} (hp : s.phase = .empty) (M : List Byte) :
    s.Absorbed M ↔ M = [] ∧ s.H = hInit ∧ s.bitlen = 0 ∧ s.bufLen = 0 ∧ s.lenOvf = false := by
  simp only [State.Absorbed, hp]
  constructor
  · rintro ⟨hb, ho, rfl, hH, hl⟩
    exact ⟨rfl, hH, hb, hl, ho⟩
  · rintro ⟨rfl, hH, hb, hl, ho⟩
    exact ⟨hb, ho, rfl, hH, hl⟩

theorem add64_bitLength (L : Nat) : add64 (BitVec.ofNat 64 (8 * L)) 8 = BitVec.ofNat 64 (8 * (L + 1)) := by
  rw [add64, Nat.mul_succ, BitVec.ofNat_add]
  rfl

/-- The flag says that 2^61 bytes or more have come: the addition of 8 carries at byte number 2^61, and a flag once set
stays (rules R17, R104). -/
theorem lenOvfAfter_bitLength (L : Nat) :
    lenOvfAfter (BitVec.ofNat 64 (8 * L)) (decide (2 ^ 61 ≤ L)) = decide (2 ^ 61 ≤ L + 1) := by
  have h8 : (8 : BitVec 64).toNat = 8 := rfl
  rw [lenOvfAfter, carry64, ← Bool.decide_or, BitVec.toNat_ofNat, h8]
  exact decide_eq_decide.2 (by omega)

/-- An accepted UPDATE appends its byte to what the core has absorbed (rule R34). -/
theorem updated_absorbed {M : List Byte} {s : State} (h : s.Absorbed M) (hp : s.phase ≠ .finalized) (d : Byte) :
    (updated d s).Absorbed (M ++ [d]) := by
  obtain ⟨-, hH, hv⟩ := absorbed_facts h hp
  obtain ⟨hH', hv'⟩ := updated_absorbs d s
  obtain ⟨hb, ho, -⟩ := h
  have hL : (M ++ [d]).length = M.length + 1 := List.length_append
  refine ⟨?bitlen, ?lenOvf, List.append_ne_nil_of_right_ne_nil _ (List.cons_ne_nil d []), ?H, ?validBytes⟩
  case bitlen => rw [updated_bitlen, hb, hL, add64_bitLength]
  case lenOvf => rw [updated_lenOvf, hb, ho, hL, lenOvfAfter_bitLength]
  case H => rw [hH', hH, hv, blocksOf_append M [d], foldTransform_append]
  case validBytes => rw [hv', hv, ← leftover_append]

/-- An accepted FINALIZE keeps the message and turns `H` into its digest state (rules R95, R97). -/
theorem finalizedState_absorbed {M : List Byte} {s : State} (h : s.Absorbed M) (hp : s.phase ≠ .finalized) :
    (finalizedState s).Absorbed M :=
  ⟨h.1, h.2.1, finalState_of_absorbed h hp, rfl⟩

/-! ### The invariant -/

theorem validListed_of_bufLen_eq_zero {s : State} (h : s.bufLen = 0) : s.validListed := by
  intro p hp
  rw [h] at hp
  exact absurd hp (Nat.not_lt_zero p)

/-- The byte at the old `buf_len` is the one just written; every position below it was specified before. -/
theorem updated_validListed {s : State} (h : s.validListed) (d : Byte) : (updated d s).validListed := by
  intro p hp
  rw [updated_buf, Memory.read_write]
  split
  · rfl
  · next hne =>
    apply h p
    by_cases hl : s.bufLen = 63
    · rw [(updated_bufLen_full hl d).1] at hp
      exact absurd hp (Nat.not_lt_zero p)
    · rw [(updated_bufLen_partial hl d).1, toNat_bufLen_succ hl] at hp
      omega

theorem inv_of_empty {s : State} (hw : s.buf.wf) (hp : s.phase = .empty) (hH : s.H = hInit) (hb : s.bitlen = 0)
    (hl : s.bufLen = 0) (ho : s.lenOvf = false) : s.Inv :=
  ⟨hw, validListed_of_bufLen_eq_zero hl, [], (absorbed_iff_of_empty hp []).2 ⟨rfl, hH, hb, hl, ho⟩⟩

theorem reset_inv (is : List HostInput) : State.Inv { State.reset with input := is } :=
  inv_of_empty Memory.nil_wf rfl rfl rfl rfl rfl

theorem hostReset_inv (s : State) : (hostReset s).Inv := inv_of_empty Memory.nil_wf rfl rfl rfl rfl rfl

theorem updated_inv {s : State} (h : s.Inv) (hp : s.phase ≠ .finalized) (d : Byte) : (updated d s).Inv := by
  obtain ⟨hw, hv, M, hM⟩ := h
  refine ⟨?_, updated_validListed hv d, M ++ [d], updated_absorbed hM hp d⟩
  rw [updated_buf]
  exact Memory.write_wf hw (bufLen_lt s) d

theorem finalizedState_inv {s : State} (h : s.Inv) (hp : s.phase ≠ .finalized) : (finalizedState s).Inv := by
  obtain ⟨-, -, M, hM⟩ := h
  exact ⟨Memory.nil_wf, validListed_of_bufLen_eq_zero rfl, M, finalizedState_absorbed hM hp⟩

/-- The invariant does not look at the response port or the host's inputs. -/
theorem inv_withPorts {s : State} (h : s.Inv) (r : Option Response) (is : List HostInput) :
    State.Inv { s with rsp := r, input := is } := h

theorem exec_keeps_inv {i : Instr} {s t : State} (hs : s.Inv) (h : exec i s = .next t) : t.Inv := by
  rcases exec_cases h with ⟨-, rfl⟩ | ⟨-, rfl⟩ | ⟨-, -, rfl⟩ | ⟨d, -, hp, rfl⟩ | ⟨-, hp, rfl⟩
  · exact inv_of_empty hs.1 rfl rfl rfl rfl rfl
  · exact inv_withPorts hs _ _
  · exact inv_withPorts hs _ _
  · exact updated_inv hs hp d
  · exact finalizedState_inv hs hp

theorem step_keeps_inv {s t : State} (hs : s.Inv) (h : step s = .next t) : t.Inv := by
  rcases step_cases h with ⟨-, rfl⟩ | ⟨w, rest, -, he⟩ | ⟨rest, -, rfl⟩
  · exact hs
  · exact exec_keeps_inv (inv_withPorts hs s.rsp rest) he
  · exact hostReset_inv _

/-! ### Runs -/

/-- No state stops the machine (rule R79). -/
theorem step_answers (s : State) : ∃ t, step s = .next t := by
  unfold step
  split
  · exact ⟨s, rfl⟩
  · next w rest _ =>
    obtain ⟨t, _, h, -⟩ := exec_answers (decodeWord w) { s with input := rest }
    exact ⟨t, h⟩
  · exact ⟨_, rfl⟩
  · exact ⟨_, rfl⟩

/-- What every step keeps, every run keeps. -/
theorem run_keeps {P : State → Prop} (hstep : ∀ {s t}, P s → step s = .next t → P t) {n : Nat} {s t : State}
    (hs : P s) (h : Host.Core.run core n s = .next t) : P t := by
  induction n generalizing s with
  | zero => exact Host.Outcome.next.inj h ▸ hs
  | succ n ih =>
    obtain ⟨u, hu⟩ := step_answers s
    exact ih (hstep hs hu) (core_run_succ hu n ▸ h)

/-! ### Items 1 to 7 of rule R23 -/

theorem absorbed_bitlen_low_bits {M : List Byte} {s : State} (h : s.Absorbed M) : s.bitlen.extractLsb' 0 3 = 0 := by
  apply BitVec.eq_of_toNat_eq
  change _ = 0
  rw [h.1, BitVec.extractLsb'_toNat, BitVec.toNat_ofNat, Nat.shiftRight_zero]
  omega

/-- The byte count of rule R14 is the message's length, modulo 2^61 (rule R104). -/
theorem absorbed_bitlen_div_eight {M : List Byte} {s : State} (h : s.Absorbed M) :
    s.bitlen.toNat / 8 = M.length % 2 ^ 61 := by
  rw [h.1, BitVec.toNat_ofNat]
  omega

theorem absorbed_bufLen {M : List Byte} {s : State} (h : s.Absorbed M) (hp : s.phase ≠ .finalized) :
    s.bufLen.toNat = s.bitlen.toNat / 8 % 64 := by
  rw [(absorbed_facts h hp).1, absorbed_bitlen_div_eight h]
  omega

theorem absorbed_bufLen_bits {M : List Byte} {s : State} (h : s.Absorbed M) (hp : s.phase ≠ .finalized) :
    s.bufLen = s.bitlen.extractLsb' 3 6 := by
  apply BitVec.eq_of_toNat_eq
  rw [absorbed_bufLen h hp, BitVec.extractLsb'_toNat, Nat.shiftRight_eq_div_pow]

theorem length_blocksOf (xs : List Byte) : (blocksOf xs).length = xs.length / 64 := by simp [blocksOf]

/-- While the flag is 0 the bit length has not wrapped. -/
theorem absorbed_bitlen_of_no_overflow {M : List Byte} {s : State} (h : s.Absorbed M) (ho : s.lenOvf = false) :
    s.bitlen.toNat = 8 * M.length := by
  have hM : ¬2 ^ 61 ≤ M.length := of_decide_eq_false (h.2.1 ▸ ho)
  rw [h.1, BitVec.toNat_ofNat]
  omega

theorem code_ne_reserved (p : Phase) : p.code ≠ 0b11 := by cases p <;> decide

theorem inv_facts {s : State} (h : s.Inv) : s.Facts := by
  obtain ⟨-, -, M, hM⟩ := h
  refine ⟨?bufLen_le, absorbed_bitlen_low_bits hM, ?bufLen_eq, ?empty, ?accumulating, ?finalized,
    code_ne_reserved s.phase⟩
  case bufLen_le => exact Nat.le_of_lt_succ (bufLen_lt s)
  case bufLen_eq => exact fun hp => ⟨absorbed_bufLen_bits hM hp, absorbed_bufLen hM hp⟩
  case empty =>
    intro hp
    obtain ⟨-, hH, hb, hl, ho⟩ := (absorbed_iff_of_empty hp M).1 hM
    exact ⟨hH, hb, hl, ho⟩
  case accumulating =>
    intro hp ho
    have hb := absorbed_bitlen_of_no_overflow hM ho
    have hlen := length_blocksOf M
    obtain ⟨-, -, hM⟩ := hM
    rw [hp] at hM
    obtain ⟨hne, hH, hv⟩ := hM
    have hpos := List.length_pos_of_ne_nil hne
    exact ⟨by omega, M, by omega, by omega, hH, hv⟩
  case finalized =>
    intro hp
    obtain ⟨hb, -, hM⟩ := hM
    rw [hp] at hM
    exact ⟨hM.2, M, hb, hM.1⟩

/-- Settles O51: the reset state meets the invariant, every step keeps it, and it gives items 1 to 7. -/
theorem reachedStatesHaveStateFacts : Obligations.ReachedStatesHaveStateFacts := by
  intro is n t h
  have ht : t.Inv := run_keeps step_keeps_inv (reset_inv is) h
  exact ⟨ht, inv_facts ht⟩

end Sys2Proof.Machine
end

section
/-! The family of 10_state.md: the writers of `H` and of `len_ovf`, the reset values, the status and digest ports (rules
R12, R13, R17 to R20, R24). -/

namespace Sys2Proof.Machine

/-! ### The length overflow flag -/

/-- An accepted UPDATE does not look at `len_ovf`, except to keep it set (rule R17). -/
theorem updated_withLenOvf (d : Byte) (s : State) (b : Bool) :
    updated d { s with lenOvf := b } = { updated d s with lenOvf := lenOvfAfter s.bitlen b } := by
  by_cases h : s.bufLen = 63
  · have e := advanceBuffer_full (s := storeByte d (countByte s)) h
    have e' := advanceBuffer_full (s := storeByte d (countByte { s with lenOvf := b })) h
    rw [updated, updated, e, e']
    rfl
  · have e := advanceBuffer_partial (s := storeByte d (countByte s)) h
    have e' := advanceBuffer_partial (s := storeByte d (countByte { s with lenOvf := b })) h
    rw [updated, updated, e, e']
    rfl

/-- A command does the same whatever the flag, the flag itself excepted (rule R17). -/
theorem exec_withLenOvf {i : Instr} {s t : State} (h : exec i s = .next t) (b : Bool) :
    ∃ t', exec i { s with lenOvf := b } = .next t' ∧ { t' with lenOvf := t.lenOvf } = t := by
  rcases exec_cases h with ⟨rfl, rfl⟩ | ⟨rfl, rfl⟩ | ⟨rfl | ⟨d, rfl⟩, hp, rfl⟩ | ⟨d, rfl, hp, rfl⟩ | ⟨rfl, hp, rfl⟩
  · exact ⟨_, rfl, rfl⟩
  · exact ⟨_, rfl, rfl⟩
  · exact ⟨_, exec_finalize_refused (by exact hp), rfl⟩
  · exact ⟨_, exec_update_refused (by exact hp) d, rfl⟩
  · exact ⟨_, exec_update (by exact hp) d, by rw [updated_withLenOvf]⟩
  · exact ⟨_, exec_finalize (by exact hp), rfl⟩

/-- Only INIT clears the flag (rule R17). -/
theorem exec_keeps_lenOvf {i : Instr} {s t : State} (h : exec i s = .next t) (hi : i ≠ .init) (ho : s.lenOvf = true) :
    t.lenOvf = true := by
  rcases exec_cases h with ⟨rfl, -⟩ | ⟨-, rfl⟩ | ⟨-, -, rfl⟩ | ⟨d, -, -, rfl⟩ | ⟨-, -, rfl⟩
  · exact absurd rfl hi
  · exact ho
  · exact ho
  · rw [updated_lenOvf, lenOvfAfter, ho, Bool.true_or]
  · exact ho

theorem updated_lenOvf_of_carry {s : State} (h : 2 ^ 64 ≤ s.bitlen.toNat + 8) (d : Byte) :
    (updated d s).lenOvf = true := by
  have hc : carry64 s.bitlen 8 = true := decide_eq_true h
  rw [updated_lenOvf, lenOvfAfter, hc, Bool.or_true]

/-- Settles O29, clause by clause: kept by all but INIT, cleared by INIT and reset, set by a carry, read by nothing. -/
theorem lengthOverflowFlagIsSticky : Obligations.LengthOverflowFlagIsSticky := by
  refine ⟨fun i s t => exec_keeps_lenOvf, fun s t h => ?_, hostReset_lenOvf, fun d s hp hc => ?_,
    fun i s t b h => exec_withLenOvf h b⟩
  · rw [exec_init] at h
    exact Host.Outcome.next.inj h ▸ rfl
  · exact ⟨_, exec_update hp d, updated_lenOvf_of_carry hc d⟩

/-! ### The running state -/

/-- `H` after an accepted UPDATE (rule R89). -/
theorem updated_H (d : Byte) (s : State) :
    (updated d s).H = if s.bufLen = 63 then transform s.H (storeByte d (countByte s)).bufBlock else s.H := by
  split
  · next h => exact (updated_bufLen_full h d).2
  · next h => exact (updated_bufLen_partial h d).2

/-- Settles O32: UPDATE and FINALIZE are split by the phase, which refuses or accepts them. -/
theorem writersOfRunningState : Obligations.WritersOfRunningState := by
  refine ⟨fun i s => ?_, hostReset_H⟩
  cases i with
  | init => exact ⟨_, exec_init s, rfl⟩
  | reserved => exact ⟨_, exec_reserved s, rfl⟩
  | update d =>
    by_cases hp : s.phase = .finalized
    · exact ⟨_, exec_update_refused hp d, (if_neg fun h => h.1 hp).symm⟩
    · exact ⟨_, exec_update hp d, by simp only [updated_H, ne_eq, hp, not_false_eq_true, true_and]⟩
  | finalize =>
    by_cases hp : s.phase = .finalized
    · exact ⟨_, exec_finalize_refused hp, (if_pos hp).symm⟩
    · exact ⟨_, exec_finalize hp, (if_neg hp).symm⟩

/-! ### The ports -/

theorem digest_of_finalized {s : State} (h : s.phase = .finalized) : s.digest = packChain s.H := if_pos h

theorem digest_of_not_finalized {s : State} (h : s.phase ≠ .finalized) : s.digest = 0 := if_neg h

/-- Settles O33: of the ports only the digest reads `H`, and only in phase Finalized. -/
theorem runningStateIsHidden : Obligations.RunningStateIsHidden := by
  refine fun s => ⟨fun H hp => ⟨?_, digest_of_not_finalized hp⟩, digest_of_finalized⟩
  have hd : State.digest { s with H := H } = s.digest := by
    rw [digest_of_not_finalized hp, digest_of_not_finalized (by exact hp)]
  rw [State.outputs, hd]
  rfl

theorem status_phase (s : State) : s.status.extractLsb' 0 2 = s.phase.code := by
  rw [State.status, BitVec.extractLsb'_append_eq_right]

theorem status_lenOvf (s : State) : s.status.getLsbD 2 = s.lenOvf := by
  rw [State.status, BitVec.getLsbD_append]
  simp

/-- Settles O34, by the phase. -/
theorem statusPorts : Obligations.StatusPorts := by
  intro s
  rw [status_phase, State.digestValid]
  cases s.phase <;> exact ⟨rfl, status_lenOvf s, rfl⟩

/-- Settles O8: the reset values are fields of the reset state, and INIT writes the same ones. -/
theorem resetValues : Obligations.ResetValues :=
  ⟨rfl, rfl, rfl, rfl, rfl, Memory.read_nil, rfl, rfl, rfl, fun s => ⟨_, exec_init s, rfl, rfl, rfl, rfl, rfl⟩⟩

end Sys2Proof.Machine
end

section
/-! The byte views of words, of the length field and of the running state: every multi-byte quantity is big-endian
(rules R31 to R35, R54). -/

namespace Sys2Proof.Machine

/-! ### Words -/

/-- Four adjacent bytes of a value are a 32-bit slice of it (rule R31). -/
theorem be32_eq_extractLsb' {n m : Nat} {v : BitVec n} {b0 b1 b2 b3 : Byte} (h0 : b0 = v.extractLsb' (m + 24) 8)
    (h1 : b1 = v.extractLsb' (m + 16) 8) (h2 : b2 = v.extractLsb' (m + 8) 8) (h3 : b3 = v.extractLsb' m 8) :
    be32 b0 b1 b2 b3 = v.extractLsb' m 32 := by
  have two := BitVec.extractLsb'_append_extractLsb'_eq_extractLsb' (x := v) (len₂ := 8) (Nat.add_assoc m 16 8).symm
  have three := BitVec.extractLsb'_append_extractLsb'_eq_extractLsb' (x := v) (len₂ := 16) (Nat.add_assoc m 8 8).symm
  have four := BitVec.extractLsb'_append_extractLsb'_eq_extractLsb' (x := v) (start₂ := m + 8) (len₂ := 24) rfl
  rw [h0, h1, h2, h3, be32, two, three, four]

/-- The four bytes of a word give the word back (rule R35). -/
theorem be32_eq_word {w : Word} {b0 b1 b2 b3 : Byte} (h0 : b0 = wordByte w 0) (h1 : b1 = wordByte w 1)
    (h2 : b2 = wordByte w 2) (h3 : b3 = wordByte w 3) : be32 b0 b1 b2 b3 = w :=
  (be32_eq_extractLsb' h0 h1 h2 h3).trans BitVec.extractLsb'_eq_self

/-- A word gives its four bytes back (rule R35). -/
theorem wordByte_be32 (b0 b1 b2 b3 : Byte) :
    (List.range 4).map (wordByte (be32 b0 b1 b2 b3)) = [b0, b1, b2, b3] := by
  have h0 : wordByte (be32 b0 b1 b2 b3) 0 = b0 := by
    rw [wordByte, be32, BitVec.extractLsb'_append_eq_of_le (by decide), BitVec.extractLsb'_append_eq_of_le (by decide)]
    exact BitVec.extractLsb'_append_eq_left
  have h1 : wordByte (be32 b0 b1 b2 b3) 1 = b1 := by
    rw [wordByte, be32, BitVec.extractLsb'_append_eq_of_le (by decide), BitVec.extractLsb'_append_eq_of_le (by decide)]
    exact BitVec.extractLsb'_append_eq_right
  have h2 : wordByte (be32 b0 b1 b2 b3) 2 = b2 := by
    rw [wordByte, be32, BitVec.extractLsb'_append_eq_of_le (by decide)]
    exact BitVec.extractLsb'_append_eq_right
  have h3 : wordByte (be32 b0 b1 b2 b3) 3 = b3 := BitVec.extractLsb'_append_eq_right
  change [_, _, _, _] = _
  rw [h0, h1, h2, h3]

/-- A byte of a word of a wider port is a byte of the port. -/
theorem wordByte_extractLsb' {n : Nat} (v : BitVec n) (m : Nat) (k : Fin 4) :
    wordByte (v.extractLsb' m 32) k.val = v.extractLsb' (m + (24 - 8 * k.val)) 8 := by
  apply BitVec.eq_of_getLsbD_eq
  intro j hj
  have hj' : 24 - 8 * k.val + j < 32 := by omega
  simp only [wordByte, BitVec.getLsbD_extractLsb', hj, hj', decide_true, Bool.true_and, Nat.add_assoc]

/-- Schedule words 0 to 15 are the block's words (rule R68). -/
theorem getD_schedule_of_lt (B : Block) {i : Nat} (h : i < 16) :
    (schedule B).getD i 0 = be32 B[4 * i] B[4 * i + 1] B[4 * i + 2] B[4 * i + 3] := by
  rw [schedule, getD_expandSchedule_of_lt 64 (by rwa [length_loadSchedule]), getD_loadSchedule B h]

/-! ### The length field -/

/-- Horner's rule over the eight bytes gives the number back (rules R32, R35). -/
theorem foldl_len8 (v : BitVec 64) : (len8 v).foldl (fun n b => 256 * n + b.toNat) 0 = v.toNat := by
  have hv := v.isLt
  simp only [len8, lenByte, List.range, List.range.loop, List.map, List.foldl, BitVec.extractLsb'_toNat,
    Nat.shiftRight_eq_div_pow]
  omega

/-- The block of FINALIZE that carries the length field (rules R93, R94). -/
def IsLastPaddedBlock (s : State) (B : Block) : Prop :=
  s.bufLen.toNat ≤ 55 ∧ B = oneBlockPadding s ∨ 56 ≤ s.bufLen.toNat ∧ B = secondOfTwoPadding s.bitlen

theorem IsLastPaddedBlock.getElem_length {s : State} {B : Block} (h : IsLastPaddedBlock s B) (k : Fin 8) :
    B[56 + k.val] = lenByte s.bitlen k.val := by
  rcases h with ⟨hl, rfl⟩ | ⟨-, rfl⟩
  · simp only [oneBlockPadding, Vector.getElem_ofFn]
    rw [if_neg (by omega), if_neg (by omega), if_neg (by omega), Nat.add_sub_cancel_left]
  · simp only [secondOfTwoPadding, Vector.getElem_ofFn]
    rw [if_neg (by omega), Nat.add_sub_cancel_left]

theorem IsLastPaddedBlock.ofFn_length {s : State} {B : Block} (h : IsLastPaddedBlock s B) :
    (List.ofFn fun k : Fin 8 => B[56 + k.val]) = len8 s.bitlen :=
  congrArg List.ofFn (funext h.getElem_length)

/-! ### The running state -/

/-- The words of the packed state, word 0 in bits 159:128 (rule R54). -/
theorem extractLsb'_packChain (c : Chain) (i : Fin 5) :
    (packChain c).extractLsb' (128 - 32 * i.val) 32 = chainWord c i.val := by
  rw [packChain]
  match i with
  | 0 =>
    rw [BitVec.extractLsb'_append_eq_of_le (by decide), BitVec.extractLsb'_append_eq_of_le (by decide),
      BitVec.extractLsb'_append_eq_of_le (by decide)]
    exact BitVec.extractLsb'_append_eq_left
  | 1 =>
    rw [BitVec.extractLsb'_append_eq_of_le (by decide), BitVec.extractLsb'_append_eq_of_le (by decide),
      BitVec.extractLsb'_append_eq_of_le (by decide)]
    exact BitVec.extractLsb'_append_eq_right
  | 2 =>
    rw [BitVec.extractLsb'_append_eq_of_le (by decide), BitVec.extractLsb'_append_eq_of_le (by decide)]
    exact BitVec.extractLsb'_append_eq_right
  | 3 =>
    rw [BitVec.extractLsb'_append_eq_of_le (by decide)]
    exact BitVec.extractLsb'_append_eq_right
  | 4 => exact BitVec.extractLsb'_append_eq_right

/-- Byte `4i + k` of the digest port is byte `k` of `H[i]` (rule R33). -/
theorem digestByte_of_finalized {s : State} (h : s.phase = .finalized) (i : Fin 5) (k : Fin 4) :
    s.digestByte (4 * i.val + k.val) = wordByte (chainWord s.H i.val) k.val := by
  have hj : 152 - 8 * (4 * i.val + k.val) = 128 - 32 * i.val + (24 - 8 * k.val) := by omega
  rw [State.digestByte, digest_of_finalized h, hj, ← wordByte_extractLsb', extractLsb'_packChain]

/-- Byte `4i + k` of the serialized state is byte `k` of its word `i` (rules R33, R96). -/
theorem getD_serialize (c : Chain) (i : Fin 5) (k : Fin 4) :
    (serialize c).getD (4 * i.val + k.val) 0 = wordByte (chainWord c i.val) k.val := by
  have hj : 4 * i.val + k.val < 20 := by omega
  have hd : (4 * i.val + k.val) / 4 = i.val := by omega
  have hm : (4 * i.val + k.val) % 4 = k.val := by omega
  simp [serialize, List.getD_eq_getElem?_getD, hj, hd, hm]

/-- The twenty bytes of the digest port are the serialization of `H` (rules R33, R96). -/
theorem digestBytes_of_finalized {s : State} (h : s.phase = .finalized) :
    (List.range 20).map s.digestByte = serialize s.H := by
  refine List.map_congr_left fun j hj => ?_
  have hj := List.mem_range.1 hj
  have hb := digestByte_of_finalized h ⟨j / 4, by omega⟩ ⟨j % 4, by omega⟩
  rwa [Nat.div_add_mod] at hb

end Sys2Proof.Machine
end

section
/-! The family of 20_memory.md: the order of commands and of message bytes, the length field, the byte views of the
digest, and the independence of the cores (rules R32 to R35, R39, R44). -/

namespace Sys2Proof.Machine

/-! ### Commands in order -/

theorem opField_makeWord (op : BitVec 2) (d : Byte) : opField (makeWord op d) = op := BitVec.extractLsb'_append_eq_left

theorem dataField_makeWord (op : BitVec 2) (d : Byte) : dataField (makeWord op d) = d :=
  BitVec.extractLsb'_append_eq_right

/-- The decoder reads every command from its canonical word (rules R48, R50). -/
theorem decodeWord_encode (i : Instr) : decodeWord (encode i) = i := by
  cases i with
  | init => rfl
  | update d =>
    rw [encode, decodeWord, opField_makeWord, dataField_makeWord]
    rfl
  | finalize => rfl
  | reserved => rfl

theorem step_command {s : State} {w : CommandWord} {rest : List HostInput} (h : s.input = .command w :: rest) :
    step s = exec (decodeWord w) { s with input := rest } := by
  rw [step, h]

/-- Settles O13, by induction on the commands: the first step runs the first command, whose next state then has the
others before it. -/
theorem commandsRunInOrder : Obligations.CommandsRunInOrder := by
  intro is
  induction is with
  | nil =>
    rintro s rest rfl
    exact ⟨s, [], rfl, rfl, rfl, rfl⟩
  | cons i is ih =>
    intro s rest hin
    obtain ⟨t, r, he, hr, ht⟩ := exec_answers i { s with input := commandInputs is ++ rest }
    obtain ⟨u, rs, hu, hlen, hrest, hrun⟩ := ih t rest ht
    have hstep : step s = .next t := by
      rw [step_command hin, decodeWord_encode]
      exact he
    refine ⟨u, r :: rs, runCommands_cons (exec_withPorts he s.rsp rest) hr hu, congrArg Nat.succ hlen, hrest, ?_⟩
    rw [List.length_cons, core_run_succ hstep, hrun]

/-- Settles O16: `buf_len` is the message's length modulo 64, and there an accepted UPDATE stores its byte. -/
theorem messageByteIsStoredInOrder : Obligations.MessageByteIsStoredInOrder := by
  intro M s d hM hp
  have hpos : s.bufLen.toNat = M.length % 64 := (absorbed_facts hM hp).1
  refine ⟨updated d s, exec_update hp d, ?_, fun p hne => ?_, updated_absorbed hM hp d⟩
  · rw [bufByte_updated, if_pos hpos.symm]
  · rw [bufByte_updated, if_neg (hpos ▸ hne)]

/-! ### The byte views -/

/-- Settles O23: schedule words 14 and 15 are made of the eight bytes of the length field. -/
theorem lengthFieldIsBigEndian : Obligations.LengthFieldIsBigEndian := by
  intro s B h
  have hb := IsLastPaddedBlock.getElem_length h
  refine ⟨hb, ?high, ?low⟩
  case high =>
    rw [getD_schedule_of_lt B (by decide)]
    exact be32_eq_extractLsb' (hb 0) (hb 1) (hb 2) (hb 3)
  case low =>
    rw [getD_schedule_of_lt B (by decide)]
    exact be32_eq_extractLsb' (hb 4) (hb 5) (hb 6) (hb 7)

/-- Settles O35: each byte of the port is a byte of a word of `H`, and outside phase Finalized the port reads 0. -/
theorem digestPortBytes : Obligations.DigestPortBytes := fun _ =>
  ⟨digestByte_of_finalized, digestBytes_of_finalized, digest_of_not_finalized⟩

/-- Settles O37, view by view. -/
theorem mixedWidthViewsAgree : Obligations.MixedWidthViewsAgree := by
  refine ⟨fun B i => ?schedule, fun s B h => ?length, fun s h i => ?port, wordByte_be32, foldl_len8, fun c i => ?bytes⟩
  case schedule => rw [getD_schedule_of_lt B i.isLt, wordByte_be32]
  case length => rw [IsLastPaddedBlock.ofFn_length h, foldl_len8]
  case port =>
    have hb := digestByte_of_finalized h i
    exact be32_eq_word (hb 0) (hb 1) (hb 2) (hb 3)
  case bytes =>
    have hb := getD_serialize c i
    exact be32_eq_word (hb 0) (hb 1) (hb 2) (hb 3)

/-! ### Several cores -/

/-- A step of core `k` sets core `k`, to a state that depends on that core alone (rule R44). -/
theorem stepAt_eq_set (k : Nat) (sys : System) :
    ∃ t, ∀ sys' : System, sys'[k]? = sys[k]? → System.stepAt k sys' = .next (sys'.set k t) := by
  cases hk : sys[k]? with
  | none =>
    refine ⟨State.reset, fun sys' h => ?_⟩
    rw [System.stepAt, h, List.set_eq_of_length_le (List.getElem?_eq_none_iff.1 h)]
  | some s =>
    obtain ⟨t, ht⟩ := step_answers s
    exact ⟨t, fun sys' h => by simp only [System.stepAt, h, ht]⟩

/-- Settles O39: each step sets one place of the list, and neither sets the place that the other reads. -/
theorem coresAreIndependent : Obligations.CoresAreIndependent := by
  intro sys j k hjk
  obtain ⟨t, ht⟩ := stepAt_eq_set j sys
  obtain ⟨t', ht'⟩ := stepAt_eq_set k sys
  have hk : (sys.set j t)[k]? = sys[k]? := List.getElem?_set_ne hjk
  have hj : (sys.set k t')[j]? = sys[j]? := List.getElem?_set_ne hjk.symm
  refine ⟨_, _, _, ht sys rfl, ht' sys rfl, hk, ht' _ hk, ?_⟩
  rw [ht _ hj, List.set_comm _ _ hjk]

end Sys2Proof.Machine
end

section
/-! The command word as its two fields, and the transform's packed ports (rules R47, R48, R50, R54). -/

namespace Sys2Proof.Machine

/-! ### The command word -/

/-- A command word is its `op` and its `data` (rule R47). -/
theorem makeWord_fields (w : CommandWord) : makeWord (opField w) (dataField w) = w := by
  have hcat : opField w ++ dataField w = w.extractLsb' 0 (2 + 8) :=
    BitVec.extractLsb'_append_extractLsb'_eq_extractLsb' (Nat.zero_add 8).symm
  exact hcat.trans BitVec.extractLsb'_eq_self

/-- The decoder by `op` (rule R48). -/
theorem decodeWord_makeWord (op : BitVec 2) (d : Byte) :
    decodeWord (makeWord op d) =
      if op = 0b00#2 then .init
      else if op = 0b01#2 then .update d
      else if op = 0b10#2 then .finalize
      else .reserved := by
  rw [decodeWord, opField_makeWord, dataField_makeWord]

theorem decodeWord_op_init (d : Byte) : decodeWord (0b00#2 ++ d) = .init := decodeWord_makeWord 0b00 d

theorem decodeWord_op_update (d : Byte) : decodeWord (0b01#2 ++ d) = .update d := decodeWord_makeWord 0b01 d

theorem decodeWord_op_finalize (d : Byte) : decodeWord (0b10#2 ++ d) = .finalize := decodeWord_makeWord 0b10 d

theorem decodeWord_op_reserved (d : Byte) : decodeWord (0b11#2 ++ d) = .reserved := decodeWord_makeWord 0b11 d

/-- The canonical word of the command that the decoder reads has the `op` of the word read (rule R48). -/
theorem opField_encode_decodeWord (w : CommandWord) : opField (encode (decodeWord w)) = opField w := by
  have last : ∀ op : BitVec 2, op ≠ 0b00#2 → op ≠ 0b01#2 → op ≠ 0b10#2 → 0b11#2 = op := by decide
  unfold decodeWord
  split
  case isTrue h => exact h.symm
  case isFalse h0 =>
    split
    case isTrue h => exact (opField_makeWord _ _).trans h.symm
    case isFalse h1 =>
      split
      case isTrue h => exact h.symm
      case isFalse h2 => exact last _ h0 h1 h2

/-! ### The opcode map -/

/-- The mask of the opcode map keeps `op` alone. -/
theorem and_opMask (w : CommandWord) : w &&& 0x300 = makeWord (opField w) 0 := by
  calc w &&& 0x300 = makeWord (opField w) (dataField w) &&& makeWord 0b11 0 := by
        rw [makeWord_fields]
        rfl
    _ = makeWord (opField w &&& 0b11) (dataField w &&& 0) := BitVec.and_append
    _ = makeWord (opField w) 0 := congrArg₂ makeWord (BitVec.and_allOnes (x := opField w)) BitVec.and_zero

/-- Words with one `op` belong to the same rows. -/
theorem covers_congr {r : OpcodeRow} (hr : r ∈ opcodeTable) {w w' : CommandWord} (h : opField w = opField w') :
    r.covers w = r.covers w' := by
  have hmask : ∀ r ∈ opcodeTable, r.mask = 0x300 := by decide
  rw [OpcodeRow.covers, OpcodeRow.covers, hmask r hr, and_opMask, and_opMask, h]

/-- Every command's canonical word is covered by its own row alone. -/
theorem rows_covering_encode (i : Instr) :
    (opcodeTable.filter fun r => r.covers (encode i)).map OpcodeRow.mnemonic = [i.mnemonic] := by
  cases i with
  | init => exact Laws.EncodingMatchesTable.init.2
  | update d => exact (Laws.EncodingMatchesTable.update d).2
  | finalize => exact Laws.EncodingMatchesTable.finalize.2
  | reserved => exact Laws.EncodingMatchesTable.reserved.2

/-! ### UPDATE_CHUNK -/

/-- The inputs of one UPDATE for each byte (rule R56). -/
theorem commandInputs_updateChunk_map {α : Type} (f : α → Byte) (xs : List α) :
    commandInputs (updateChunk (xs.map f)) = xs.map fun x => .command (encode (.update (f x))) := by
  rw [updateChunk, commandInputs, List.map_map, List.map_map]
  rfl

/-! ### The packed ports -/

theorem unpackChain_packChain (S : Chain) : unpackChain (packChain S) = S := by
  have hw := extractLsb'_packChain S
  exact congr (congr (congr (congr (congrArg Chain.mk (hw 0)) (hw 1)) (hw 2)) (hw 3)) (hw 4)

/-- One byte more on the 512-bit port, below the others: the step of `packBlock`. -/
def shiftIn (v : BitVec 512) (b : Byte) : BitVec 512 := v <<< 8 ||| b.setWidth 512

theorem packBlock_eq_foldl_shiftIn (B : Block) : packBlock B = B.toList.foldl shiftIn 0 := rfl

/-- The byte shifted in is the lowest. -/
theorem shiftIn_low (v : BitVec 512) (b : Byte) : (shiftIn v b).extractLsb' 0 8 = b := by
  apply BitVec.eq_of_getLsbD_eq
  intro j hj
  simp [shiftIn, hj, show j < 512 by omega]

/-- A byte that stays inside the port moves up by one place. -/
theorem shiftIn_high (v : BitVec 512) (b : Byte) {n : Nat} (h : n + 16 ≤ 512) :
    (shiftIn v b).extractLsb' (n + 8) 8 = v.extractLsb' n 8 := by
  apply BitVec.eq_of_getLsbD_eq
  intro j hj
  have hpos : n + 8 + j = n + j + 8 := by omega
  have hin : n + j + 8 < 512 := by omega
  simp [shiftIn, hj, hpos, hin, BitVec.getLsbD_eq_getElem (show n + j < 512 by omega)]

/-- A byte that stays inside the port moves up by one place for each byte shifted in. -/
theorem foldl_shiftIn_high (bs : List Byte) (v : BitVec 512) (n : Nat) (h : n + 8 * bs.length + 8 ≤ 512) :
    (bs.foldl shiftIn v).extractLsb' (n + 8 * bs.length) 8 = v.extractLsb' n 8 := by
  induction bs generalizing v n with
  | nil => rfl
  | cons b bs ih =>
    rw [List.length_cons] at h ⊢
    rw [List.foldl_cons, show n + 8 * (bs.length + 1) = n + 8 + 8 * bs.length by omega, ih _ _ (by omega),
      shiftIn_high v b (by omega)]

/-- A byte stays on the port below the bytes before it and above the bytes after it. -/
theorem foldl_shiftIn_append_cons (xs ys : List Byte) (b : Byte) (v : BitVec 512) (h : 8 * ys.length + 8 ≤ 512) :
    ((xs ++ b :: ys).foldl shiftIn v).extractLsb' (8 * ys.length) 8 = b := by
  have hup := foldl_shiftIn_high ys (shiftIn (xs.foldl shiftIn v) b) 0 (by omega)
  rw [Nat.zero_add, shiftIn_low] at hup
  rw [List.foldl_append, List.foldl_cons, hup]

/-- Byte `p` of a block on the block port, byte 0 in bits 511:504 (rule R54). -/
theorem extractLsb'_packBlock (B : Block) {p : Nat} (hp : p < 64) :
    (packBlock B).extractLsb' (504 - 8 * p) 8 = B[p] := by
  have hsplit : B.toList.take p ++ B[p] :: B.toList.drop (p + 1) = B.toList := by
    rw [← Vector.getElem_toList (h := by rwa [B.length_toList]), List.getElem_cons_drop, List.take_append_drop]
  have hpos : 8 * (B.toList.drop (p + 1)).length = 504 - 8 * p := by
    rw [List.length_drop, B.length_toList]
    omega
  have hbyte := foldl_shiftIn_append_cons (B.toList.take p) (B.toList.drop (p + 1)) B[p] 0 (by omega)
  rwa [hsplit, hpos, ← packBlock_eq_foldl_shiftIn] at hbyte

theorem unpackBlock_packBlock (B : Block) : unpackBlock (packBlock B) = B := by
  apply Vector.ext
  intro p hp
  rw [unpackBlock, Vector.getElem_ofFn, extractLsb'_packBlock B hp]

/-- `W[i]` for `i` in 0..15 is a slice of the block port (rule R54). -/
theorem getD_schedule_eq_slice (B : Block) {i : Nat} (h : i < 16) :
    (schedule B).getD i 0 = (packBlock B).extractLsb' (480 - 32 * i) 32 := by
  have hb (k : Nat) (hk : k < 4) : B[4 * i + k] = (packBlock B).extractLsb' (480 - 32 * i + (24 - 8 * k)) 8 := by
    rw [← extractLsb'_packBlock B, show 504 - 8 * (4 * i + k) = 480 - 32 * i + (24 - 8 * k) by omega]
  rw [getD_schedule_of_lt B h]
  exact be32_eq_extractLsb' (hb 0 (by decide)) (hb 1 (by decide)) (hb 2 (by decide)) (hb 3 (by decide))

end Sys2Proof.Machine
end

section
/-! The family of 30_encoding.md: the opcode map, the ignored data bits, the reserved encoding, UPDATE_CHUNK, and the
transform's packed ports (rules R48 to R50, R54, R56, R112). -/

namespace Sys2Proof.Machine

/-- Settles O48: unpacking undoes packing on both input ports. -/
theorem transformUnitPorts : Obligations.TransformUnitPorts := by
  refine ⟨fun S B => ?unit, extractLsb'_packChain, fun B p => extractLsb'_packBlock B p.isLt,
    fun B i => getD_schedule_eq_slice B i.isLt⟩
  case unit => rw [transformUnit, unpackChain_packChain, unpackBlock_packBlock]

/-- Settles O2: a word belongs to the same rows as the canonical word of the command it decodes to. -/
theorem opcodeMapDecodesEveryWord : Obligations.OpcodeMapDecodesEveryWord := by
  refine ⟨fun w => ?rows, fun d =>
    ⟨decodeWord_op_init d, decodeWord_op_update d, decodeWord_op_finalize d, decodeWord_op_reserved d⟩⟩
  case rows =>
    rw [← rows_covering_encode, List.filter_congr fun r hr => covers_congr hr (opField_encode_decodeWord w)]

/-- Settles O3: with these values of `op` the decoder reads the same command for every data byte. -/
theorem ignoredDataHasNoEffect : Obligations.IgnoredDataHasNoEffect := by
  refine ⟨fun d s => ⟨?init, ?finalize, ?reserved⟩, rfl, rfl, rfl⟩
  case init => rw [decodeWord_op_init, decodeWord_op_init]
  case finalize => rw [decodeWord_op_finalize, decodeWord_op_finalize]
  case reserved => rw [decodeWord_op_reserved, decodeWord_op_reserved]

/-- Settles O7: bytes and text differ only in the byte that each operand stands for. -/
theorem updateChunkExpands : Obligations.UpdateChunkExpands :=
  ⟨commandInputs_updateChunk_map operandByte, commandInputs_updateChunk_map charByte, fun _ => rfl⟩

/-- Settles O25: the decoder reads the reserved command for every data byte, and refusing it sets `rsp` alone. -/
theorem reservedResult : Obligations.ReservedResult := by
  refine fun s => ⟨exec_reserved s, fun d => ?_⟩
  rw [decodeWord_op_reserved, exec_reserved]

end Sys2Proof.Machine
end

section
/-! The parts of the Block Transform: the rotation, the 80 schedule words, one round, and the form with 16
schedule words (rules R67 to R69, R75, R83, R84). -/

namespace Sys2Proof.Machine

/-! ### Rotation -/

theorem rotl32_eq_rotateLeftAux (x : Word) (n : Nat) : rotl32 x n = x.rotateLeftAux n := rfl

/-- The low `n` bits of a rotated word are the high `n` bits of the word, the others move up (rule R67). -/
theorem getLsbD_rotl32 (x : Word) {n i : Nat} (hn : n < 32) (hi : i < 32) :
    (rotl32 x n).getLsbD i = x.getLsbD ((i + 32 - n) % 32) := by
  rw [rotl32_eq_rotateLeftAux]
  by_cases h : i < n
  · rw [BitVec.getLsbD_rotateLeftAux_of_lt h, show (i + 32 - n) % 32 = 32 - n + i by omega]
  · rw [BitVec.getLsbD_rotateLeftAux_of_ge (by omega), decide_eq_true hi, Bool.true_and,
      show (i + 32 - n) % 32 = i - n by omega]

/-! ### The schedule -/

theorem toNat_append_byte {n : Nat} (v : BitVec n) (b : Byte) : (v ++ b).toNat = v.toNat * 2 ^ 8 + b.toNat := by
  rw [BitVec.toNat_append, ← Nat.shiftLeft_add_eq_or_of_lt b.isLt, Nat.shiftLeft_eq]

/-- A big-endian read as a number (rule R31). -/
theorem toNat_be32 (b0 b1 b2 b3 : Byte) :
    (be32 b0 b1 b2 b3).toNat = b0.toNat * 2 ^ 24 + b1.toNat * 2 ^ 16 + b2.toNat * 2 ^ 8 + b3.toNat := by
  rw [be32, toNat_append_byte, toNat_append_byte, toNat_append_byte]
  omega

/-- The recurrence of rule R69. -/
theorem getD_schedule (B : Block) {t : Nat} (h : 16 ≤ t) (ht : t < 80) :
    (schedule B).getD t 0 =
      rotl32 ((schedule B).getD (t - 3) 0 ^^^ (schedule B).getD (t - 8) 0 ^^^ (schedule B).getD (t - 14) 0
        ^^^ (schedule B).getD (t - 16) 0) 1 :=
  getD_expandSchedule 64 (by simp) (by simpa using h) (by simpa using ht)

theorem getD_schedule_zeroBlock {t : Nat} (ht : t < 80) : (schedule (Vector.replicate 64 0)).getD t 0 = 0 := by
  induction t using Nat.strong_induction_on with
  | _ t ih =>
    by_cases h : t < 16
    · rw [getD_schedule_of_lt _ h]
      simp only [Vector.getElem_replicate]
      rfl
    · have earlier (k : Nat) (hk : 0 < k) : (schedule (Vector.replicate 64 0)).getD (t - k) 0 = 0 :=
        ih (t - k) (by omega) (by omega)
      rw [getD_schedule _ (by omega) ht, earlier 3 (by decide), earlier 8 (by decide), earlier 14 (by decide),
        earlier 16 (by decide)]
      rfl

/-! ### One round -/

/-- `temp` as a number: the five summands modulo 2^32 (rule R75). -/
theorem toNat_roundTemp (t : Nat) (w : Word) (v : Chain) :
    (roundTemp t w v).toNat =
      ((rotl32 v.h0 5).toNat + (roundFunction t v.h1 v.h2 v.h3).toNat + v.h4.toNat + (roundConstant t).toNat
        + w.toNat) % 2 ^ 32 := by
  simp only [roundTemp, BitVec.toNat_add, Nat.mod_add_mod]

/-! ### The form with 16 schedule words -/

theorem ringStep_of_lt {t : Nat} (h : t < 16) (ring : List Word) : ringStep t ring = ring := if_pos h

/-- The slot that a round fills. -/
theorem getD_ringStep_self {t : Nat} {ring : List Word} (h : 16 ≤ t) (hr : ring.length = 16) :
    (ringStep t ring).getD (t % 16) 0 =
      rotl32 (ring.getD ((t - 3) % 16) 0 ^^^ ring.getD ((t - 8) % 16) 0 ^^^ ring.getD ((t - 14) % 16) 0
        ^^^ ring.getD (t % 16) 0) 1 := by
  rw [ringStep, if_neg (by omega), List.getD_eq_getElem?_getD, List.getElem?_set_self (by omega), Option.getD_some]

/-- The other slots stay as they are. -/
theorem getD_ringStep_of_ne {t i : Nat} (h : t % 16 ≠ i) (ring : List Word) :
    (ringStep t ring).getD i 0 = ring.getD i 0 := by
  by_cases ht : t < 16
  · rw [ringStep_of_lt ht]
  · rw [ringStep, if_neg ht, List.getD_eq_getElem?_getD, List.getElem?_set_ne h, List.getD_eq_getElem?_getD]

/-- Before round `t` the ring holds the 16 schedule words before `W[t]`, each in the slot of its index modulo 16; up to
round 16 it holds the first 16. -/
def RingHolds (B : Block) (t : Nat) (ring : List Word) : Prop :=
  ring.length = 16 ∧ ∀ i, i < max t 16 → t ≤ i + 16 → ring.getD (i % 16) 0 = (schedule B).getD i 0

theorem ringHolds_loadSchedule (B : Block) : RingHolds B 0 (loadSchedule B) := by
  refine ⟨length_loadSchedule B, fun i hi _ => ?_⟩
  have hi : i < 16 := by omega
  rw [Nat.mod_eq_of_lt hi, getD_schedule_of_lt B hi, getD_loadSchedule B hi]

/-- The slot that a round fills gets that round's schedule word: its own old word is the one 16 rounds back. -/
theorem RingHolds.getD_ringStep {B : Block} {t : Nat} {ring : List Word} (h : RingHolds B t ring) (ht : t < 80) :
    (ringStep t ring).getD (t % 16) 0 = (schedule B).getD t 0 := by
  obtain ⟨hlen, hslot⟩ := h
  by_cases h16 : t < 16
  · rw [ringStep_of_lt h16, hslot t (by omega) (by omega)]
  · have old : ring.getD (t % 16) 0 = (schedule B).getD (t - 16) 0 := by
      rw [← hslot (t - 16) (by omega) (by omega), show (t - 16) % 16 = t % 16 by omega]
    rw [getD_ringStep_self (by omega) hlen, getD_schedule B (by omega) ht, old, hslot (t - 3) (by omega) (by omega),
      hslot (t - 8) (by omega) (by omega), hslot (t - 14) (by omega) (by omega)]

theorem RingHolds.succ {B : Block} {t : Nat} {ring : List Word} (h : RingHolds B t ring) (ht : t < 80) :
    RingHolds B (t + 1) (ringStep t ring) := by
  have hnew := h.getD_ringStep ht
  obtain ⟨hlen, hslot⟩ := h
  refine ⟨(length_ringStep t ring).trans hlen, fun i hi hi' => ?_⟩
  by_cases he : t % 16 = i % 16
  · rwa [show i = t by omega]
  · rw [getD_ringStep_of_ne he, hslot i (by omega) (by omega)]

/-- The rest of the rounds, from any round on. -/
theorem runRingRounds_eq {B : Block} {n t : Nat} {ring : List Word} (h : RingHolds B t ring) (ht : t + n = 80)
    (v : Chain) : runRingRounds n t ring v = runRounds t ((schedule B).drop t) v := by
  induction n generalizing t ring v with
  | zero => rw [List.drop_eq_nil_of_le (by rw [length_schedule]; omega)]; rfl
  | succ n ih =>
    have hlt : t < (schedule B).length := by rw [length_schedule]; omega
    rw [List.drop_eq_getElem_cons hlt, ← List.getD_eq_getElem _ 0 hlt, runRounds, runRingRounds,
      h.getD_ringStep (by omega), ih (h.succ (by omega)) (by omega)]

end Sys2Proof.Machine
end

section
/-! The family of 40_block_transform.md: the rotation, the schedule, the stages, the round and the form with 16 schedule
words (rules R67 to R76, R84). -/

namespace Sys2Proof.Machine

/-- Settles O40: the bits that wrap around are those of the right shift. -/
theorem rotateLeftBits : Obligations.RotateLeftBits :=
  fun x => ⟨fun _ _ _ hn hi => getLsbD_rotl32 x hn hi, BitVec.or_comm _ _⟩

/-- Settles O41: the first 16 words are the big-endian reads, which the expansion keeps. -/
theorem scheduleLoadsBigEndian : Obligations.ScheduleLoadsBigEndian := by
  intro B i
  rw [getD_schedule_of_lt B i.isLt, toNat_be32]

/-- Settles O42: the recurrence keeps an all-zero schedule all zero. -/
theorem scheduleRecurrence : Obligations.ScheduleRecurrence :=
  ⟨fun B => ⟨length_schedule B, fun _ => getD_schedule B⟩, fun _ => getD_schedule_zeroBlock⟩

/-- Settles O47: a ring that holds the last 16 schedule words gives every round the word that the schedule gives it. -/
theorem ringScheduleIsEquivalent : Obligations.RingScheduleIsEquivalent := by
  intro S B
  rw [ringTransform, transform, runRingRounds_eq (ringHolds_loadSchedule B) rfl, List.drop_zero]

/-- Settles O43: the nested choice of each definition, in the range of each stage. -/
theorem stageFunctionsAndConstants : Obligations.StageFunctionsAndConstants := by
  intro t b c d
  refine ⟨fun h => ⟨if_pos h, if_pos h⟩, fun h h' => ?stage1, fun h h' => ?stage2, fun h _ => ?stage3⟩
  case stage1 =>
    have h0 : ¬t < 20 := by omega
    simp only [roundFunction, roundConstant, if_neg h0, if_pos h', stageXor, and_self]
  case stage2 =>
    have h0 : ¬t < 20 := by omega
    have h1 : ¬t < 40 := by omega
    simp only [roundFunction, roundConstant, if_neg h0, if_neg h1, if_pos h', stageMajority, and_self]
  case stage3 =>
    have h0 : ¬t < 20 := by omega
    have h1 : ¬t < 40 := by omega
    have h2 : ¬t < 60 := by omega
    simp only [roundFunction, roundConstant, if_neg h0, if_neg h1, if_neg h2, stageXor, and_self]

/-- Settles O45: the shift is the definition of `roundStep`, and `temp` is a sum modulo 2^32. -/
theorem roundComputesTempAndShifts : Obligations.RoundComputesTempAndShifts :=
  fun t w a b c d e => ⟨rfl, toNat_roundTemp t w ⟨a, b, c, d, e⟩⟩

end Sys2Proof.Machine
end

section
/-! Sequences of commands: the UPDATEs of a chunk, INIT before them and FINALIZE after them (rules R56, R57, R103,
R105), and the padded blocks as byte sequences (rules R92 to R94). -/

namespace Sys2Proof.Machine

/-! ### INIT -/

/-- The state INIT leads to (rule R86). -/
def initialized (s : State) : State :=
  { s with H := hInit, bitlen := 0, bufLen := 0, lenOvf := false, phase := .empty, rsp := some .ok }

theorem exec_init_eq_initialized (s : State) : exec .init s = .next (initialized s) := rfl

theorem initialized_absorbed (s : State) : (initialized s).Absorbed [] :=
  (absorbed_iff_of_empty rfl []).2 ⟨rfl, rfl, rfl, rfl, rfl⟩

theorem initialized_not_finalized (s : State) : (initialized s).phase ≠ .finalized := Phase.noConfusion

/-- In phase Empty every register already has the value that INIT writes (rule R86). -/
theorem initialized_of_empty {s : State} (hs : s.Inv) (hp : s.phase = .empty) :
    initialized s = { s with rsp := some .ok } := by
  obtain ⟨-, -, M, hM⟩ := hs
  obtain ⟨-, hH, hb, hl, ho⟩ := (absorbed_iff_of_empty hp M).1 hM
  rw [initialized, ← hH, ← hb, ← hl, ← ho, ← hp]

/-- INIT alone leaves phase Finalized (rule R86). -/
theorem eq_init_of_leaves_finalized {i : Instr} {s t : State} (hs : s.phase = .finalized) (h : exec i s = .next t)
    (ht : t.phase ≠ .finalized) : i = .init := by
  rcases exec_cases h with ⟨hi, -⟩ | ⟨-, rfl⟩ | ⟨-, -, rfl⟩ | ⟨d, -, hp, -⟩ | ⟨-, hp, -⟩
  · exact hi
  · exact absurd hs ht
  · exact absurd hs ht
  · exact absurd hs hp
  · exact absurd hs hp

/-! ### The UPDATEs of a chunk -/

/-- The state that the accepted UPDATEs of a chunk lead to, one for each byte, in order (rule R105). -/
def updatedAll : List Byte → State → State
  | [], s => s
  | d :: ds, s => updatedAll ds (updated d s)

theorem updated_not_finalized (d : Byte) (s : State) : (updated d s).phase ≠ .finalized := Phase.noConfusion

theorem updatedAll_not_finalized {s : State} (h : s.phase ≠ .finalized) (bytes : List Byte) :
    (updatedAll bytes s).phase ≠ .finalized := by
  induction bytes generalizing s with
  | nil => exact h
  | cons d ds ih => exact ih (updated_not_finalized d s)

theorem updatedAll_phase {bytes : List Byte} (h : bytes ≠ []) (s : State) :
    (updatedAll bytes s).phase = .accumulating := by
  induction bytes generalizing s with
  | nil => exact absurd rfl h
  | cons d ds ih =>
    cases ds with
    | nil => rfl
    | cons e es => exact ih (List.cons_ne_nil e es) (updated d s)

theorem updatedAll_bitlen (bytes : List Byte) (s : State) :
    (updatedAll bytes s).bitlen = s.bitlen + BitVec.ofNat 64 (8 * bytes.length) := by
  induction bytes generalizing s with
  | nil => exact (BitVec.add_zero s.bitlen).symm
  | cons d ds ih =>
    rw [updatedAll, ih, updated_bitlen, List.length_cons, ← add64_bitLength, add64, add64, BitVec.add_assoc,
      BitVec.add_comm 8]

/-- What the buffer holds and the chunk, cut into blocks: the complete blocks are transformed, the rest stays buffered
(rule R105). -/
theorem updatedAll_absorbs (bytes : List Byte) (s : State) :
    (updatedAll bytes s).H = foldTransform s.H (blocksOf (s.validBytes ++ bytes))
      ∧ (updatedAll bytes s).validBytes = leftover (s.validBytes ++ bytes) := by
  induction bytes generalizing s with
  | nil =>
    have hshort : s.validBytes.length < 64 := by rw [length_validBytes]; exact bufLen_lt s
    rw [List.append_nil, blocksOf_short hshort, leftover_short hshort]
    exact ⟨rfl, rfl⟩
  | cons d ds ih =>
    obtain ⟨hH, hv⟩ := updated_absorbs d s
    obtain ⟨ihH, ihv⟩ := ih (updated d s)
    have hcons : s.validBytes ++ d :: ds = s.validBytes ++ [d] ++ ds := by rw [List.append_assoc, List.singleton_append]
    rw [hcons, blocksOf_append, foldTransform_append, leftover_append (s.validBytes ++ [d]) ds, ← hv, ← hH]
    exact ⟨ihH, ihv⟩

theorem updatedAll_bufLen (bytes : List Byte) (s : State) :
    (updatedAll bytes s).bufLen.toNat = (s.bufLen.toNat + bytes.length) % 64 := by
  rw [← length_validBytes, (updatedAll_absorbs bytes s).2, length_leftover, List.length_append, length_validBytes]

theorem updatedAll_absorbed {M : List Byte} {s : State} (h : s.Absorbed M) (hp : s.phase ≠ .finalized)
    (bytes : List Byte) : (updatedAll bytes s).Absorbed (M ++ bytes) := by
  induction bytes generalizing M s with
  | nil => rwa [List.append_nil]
  | cons d ds ih =>
    rw [← List.singleton_append, ← List.append_assoc]
    exact ih (updated_absorbed h hp d) (updated_not_finalized d s)

/-! ### Runs -/

theorem runCommands_updateChunk {s : State} (h : s.phase ≠ .finalized) (bytes : List Byte) :
    runCommands (updateChunk bytes) s = some (updatedAll bytes s, List.replicate bytes.length .ok) := by
  induction bytes generalizing s with
  | nil => rfl
  | cons d ds ih => exact runCommands_cons (exec_update h d) rfl (ih (updated_not_finalized d s))

/-- In phase Finalized every UPDATE of a chunk is refused (rules R91, R105). -/
theorem runCommands_updateChunk_refused {s : State} (h : s.phase = .finalized) (bytes : List Byte) :
    ∃ t, runCommands (updateChunk bytes) s = some (t, List.replicate bytes.length .invalidState)
      ∧ { t with rsp := s.rsp } = s := by
  induction bytes generalizing s with
  | nil => exact ⟨s, rfl, rfl⟩
  | cons d ds ih =>
    obtain ⟨t, hrun, ht⟩ := ih (s := { s with rsp := some .invalidState }) h
    exact ⟨t, runCommands_cons (exec_update_refused h d) rfl hrun,
      congrArg (fun u : State => { u with rsp := s.rsp }) ht⟩

theorem runCommands_updateChunk_finalize {s : State} (h : s.phase ≠ .finalized) (bytes : List Byte) :
    runCommands (updateChunk bytes ++ [.finalize]) s
      = some (finalizedState (updatedAll bytes s), List.replicate (bytes.length + 1) .ok) := by
  have hlast : runCommands [.finalize] (updatedAll bytes s) = some (finalizedState (updatedAll bytes s), [.ok]) :=
    runCommands_cons (exec_finalize (updatedAll_not_finalized h bytes)) rfl rfl
  rw [runCommands_append, runCommands_updateChunk h, Option.bind_some, hlast, Option.map_some, List.replicate_succ']

/-- DIGEST from every state (rules R57, R103). -/
theorem runCommands_digestCommands (M : List Byte) (s : State) :
    runCommands (digestCommands M) s
      = some (finalizedState (updatedAll M (initialized s)), List.replicate (M.length + 2) .ok) :=
  runCommands_cons (exec_init_eq_initialized s) rfl (runCommands_updateChunk_finalize (initialized_not_finalized s) M)

theorem length_digestCommands (M : List Byte) : (digestCommands M).length = M.length + 2 := by
  simp [digestCommands, updateChunk]

/-- DIGEST leaves a core that has absorbed the message, whatever came before. -/
theorem digested_absorbed (M : List Byte) (s : State) :
    (finalizedState (updatedAll M (initialized s))).Absorbed M :=
  finalizedState_absorbed (updatedAll_absorbed (initialized_absorbed s) (initialized_not_finalized s) M)
    (updatedAll_not_finalized (initialized_not_finalized s) M)

/-! ### The digest -/

theorem H_of_absorbed_finalized {M : List Byte} {s : State} (h : s.Absorbed M) (hp : s.phase = .finalized) :
    s.H = digestState M := by
  obtain ⟨-, -, hM⟩ := h
  rw [hp] at hM
  exact hM.1

theorem digest_of_absorbed {M : List Byte} {s : State} (h : s.Absorbed M) (hp : s.phase = .finalized) :
    s.digest = packChain (digestState M) := by
  rw [digest_of_finalized hp, H_of_absorbed_finalized h hp]

/-! ### Blocks as byte sequences -/

theorem toList_blockAt {xs : List Byte} (h : xs.length = 64) : (blockAt xs 0).toList = xs := by
  apply List.ext_getElem
  · rw [Vector.length_toList, h]
  · intro p _ hp
    simp only [Vector.getElem_toList, blockAt, Vector.getElem_ofFn, Nat.zero_add, List.getD_eq_getElem, hp]

theorem toList_oneBlockPadding {s : State} (h : s.bufLen.toNat ≤ 55) :
    (oneBlockPadding s).toList = s.validBytes ++ [0x80] ++ zeros (55 - s.bufLen.toNat) ++ len8 s.bitlen := by
  rw [oneBlockPadding_eq h, toList_blockAt (by simp; omega)]

theorem toList_firstOfTwoPadding (s : State) :
    (firstOfTwoPadding s).toList = s.validBytes ++ [0x80] ++ zeros (63 - s.bufLen.toNat) := by
  have hl := bufLen_lt s
  rw [firstOfTwoPadding_eq, toList_blockAt (by simp; omega)]

theorem toList_secondOfTwoPadding (v : BitVec 64) : (secondOfTwoPadding v).toList = zeros 56 ++ len8 v := by
  rw [secondOfTwoPadding_eq, toList_blockAt (by simp)]

/-- The block that an UPDATE at position 63 completes, byte by byte (rule R89). -/
theorem getElem_completedBlock {s : State} (h : s.storePosition = 63) (d : Byte) (p : Fin 64) :
    (storeByte d (countByte s)).bufBlock[p] = if p = 63 then d else s.bufByte p := by
  have hb : (countByte s).bufByte p = s.bufByte p := bufByte_of_buf rfl rfl p
  have hpos : (countByte s).storePosition = 63 := h
  have hp : p.val = 63 ↔ p = 63 := (Fin.ext_iff (a := p) (b := 63)).symm
  simp only [Fin.getElem_fin, State.bufBlock, Vector.getElem_ofFn, bufByte_storeByte, hb, hpos, hp]

/-! ### `H` after FINALIZE -/

theorem finalState_of_le {s : State} (h : s.bufLen.toNat ≤ 55) : finalState s = transform s.H (oneBlockPadding s) :=
  if_pos h

theorem finalState_of_ge {s : State} (h : 56 ≤ s.bufLen.toNat) :
    finalState s = transform (transform s.H (firstOfTwoPadding s)) (secondOfTwoPadding s.bitlen) := if_neg (by omega)

end Sys2Proof.Machine
end

section
/-! The family of 41_digest_driver.md: INIT, UPDATE, FINALIZE, the transition table and the digest of a message (rules
R85 to R105). -/

namespace Sys2Proof.Machine

/-! ### Sequences of commands -/

/-- Settles O55: DIGEST leaves a core that has absorbed the message; as steps it does what it does as a fold. -/
theorem digestOfEveryMessage : Obligations.DigestOfEveryMessage := by
  intro M s
  refine ⟨⟨_, runCommands_digestCommands M s, rfl, ?digest, ?bytes, ?lenOvf⟩, fun rest hin => ?steps⟩
  case digest => exact digest_of_absorbed (digested_absorbed M s) rfl
  case bytes => rw [digestBytes_of_finalized rfl, H_of_absorbed_finalized (digested_absorbed M s) rfl]
  case lenOvf =>
    obtain ⟨-, ho, -⟩ := digested_absorbed M s
    exact ho
  case steps =>
    obtain ⟨t, rs, hrun, -, hrest, hsteps⟩ := commandsRunInOrder (digestCommands M) s rest hin
    rw [runCommands_digestCommands] at hrun
    obtain ⟨rfl, -⟩ := Prod.mk.inj (Option.some.inj hrun)
    rw [length_digestCommands] at hsteps
    exact ⟨_, hsteps, rfl, digest_of_absorbed (digested_absorbed M _) rfl, hrest⟩

/-- Settles O18, by induction on the chunk: accepted, each UPDATE absorbs its byte; in Finalized each is refused. -/
theorem updateChunkMatchesSoftwareUpdate : Obligations.UpdateChunkMatchesSoftwareUpdate := by
  refine fun bytes s => ⟨fun hp => ?accepted, fun hp => runCommands_updateChunk_refused hp bytes⟩
  case accepted =>
    obtain ⟨hH, hv⟩ := updatedAll_absorbs bytes s
    refine ⟨_, runCommands_updateChunk hp bytes, hH, hv, updatedAll_bufLen bytes s, updatedAll_bitlen bytes s,
      fun hne => updatedAll_phase hne s, ?_⟩
    rintro rfl
    rfl

/-- Settles O19: the commands of the chunks, one after the other, are those of the whole message. -/
theorem chunkingInvariance : Obligations.ChunkingInvariance := by
  rintro chunks _ s rfl
  have hflat : (chunks.map updateChunk).flatten = updateChunk chunks.flatten := List.map_flatten.symm
  rw [hflat, digestCommands]

/-! ### INIT -/

/-- Settles O14: the record that INIT writes, against the reset state and against a state in phase Empty. -/
theorem initResult : Obligations.InitResult :=
  ⟨fun s => ⟨_, exec_init s, rfl, bufByte_of_buf rfl rfl, rfl, rfl, ⟨rfl, rfl, rfl, rfl, rfl⟩,
      initialized_of_empty⟩,
    fun _ _ _ => eq_init_of_leaves_finalized⟩

/-! ### UPDATE -/

/-- Settles O15: refused by the phase; accepted, the buffer is full after the store or it is not. -/
theorem updateResult : Obligations.UpdateResult := by
  refine fun s d => ⟨fun hp => exec_update_refused hp d, fun hp => ?accepted⟩
  case accepted =>
    refine ⟨_, exec_update hp d, bufByte_updated d s, updated_bitlen d s, updated_lenOvf d s, rfl, rfl,
      updated_input d s, updated_freeCount d s, fun hpos => ?full, fun hpos => ?notFull⟩
    case full =>
      obtain ⟨hl, hH⟩ := updated_bufLen_full (bufLen_eq_63.2 hpos) d
      exact ⟨hl, _, getElem_completedBlock hpos d, hH⟩
    case notFull =>
      have hne : s.bufLen ≠ 63 := mt bufLen_eq_63.1 hpos
      obtain ⟨hl, hH⟩ := updated_bufLen_partial hne d
      exact ⟨hl ▸ toNat_bufLen_succ hne, hH⟩

/-- Settles O17: the refused UPDATE sets `rsp` alone, which no digest bit depends on. -/
theorem updateRefusedWhenFinalized : Obligations.UpdateRefusedWhenFinalized := fun _ d hp =>
  ⟨_, exec_update_refused hp d, rfl, rfl, digest_of_finalized hp⟩

/-! ### FINALIZE -/

/-- Settles O20: refused by the phase; accepted, the padding fits one block or it does not. -/
theorem finalizeResult : Obligations.FinalizeResult := by
  refine fun s => ⟨exec_finalize_refused, fun hp => ?accepted⟩
  case accepted =>
    exact ⟨_, exec_finalize hp, rfl, rfl, rfl, rfl, rfl, rfl, Memory.read_nil,
      fun h => ⟨_, toList_oneBlockPadding h, finalState_of_le h⟩,
      fun h => ⟨_, _, toList_firstOfTwoPadding s, toList_secondOfTwoPadding s.bitlen, finalState_of_ge h⟩⟩

/-- Settles O21, by the ranges of positions of `oneBlockPadding`. -/
theorem onePaddingBlock : Obligations.OnePaddingBlock := by
  intro s hp hl
  refine ⟨_, oneBlockPadding s, exec_finalize hp, finalState_of_le hl, fun p h => ?buffered, fun p h => ?marker,
    fun p h h' => ?zeros, IsLastPaddedBlock.getElem_length (.inl ⟨hl, rfl⟩)⟩
  all_goals simp only [Fin.getElem_fin, oneBlockPadding, Vector.getElem_ofFn]
  case buffered => rw [if_pos h]
  case marker => rw [if_neg (by omega), if_pos h]
  case zeros => rw [if_neg (by omega), if_neg (by omega), if_pos (by omega)]

/-- Settles O22, by the ranges of positions of `firstOfTwoPadding` and `secondOfTwoPadding`. -/
theorem twoPaddingBlocks : Obligations.TwoPaddingBlocks := by
  intro s hp hl
  refine ⟨_, firstOfTwoPadding s, secondOfTwoPadding s.bitlen, exec_finalize hp, finalState_of_ge hl,
    fun p h => ?buffered, fun p h => ?marker, fun p h => ?zeros, fun p h => ?zerosOfSecond,
    IsLastPaddedBlock.getElem_length (.inr ⟨hl, rfl⟩)⟩
  all_goals simp only [Fin.getElem_fin, firstOfTwoPadding, secondOfTwoPadding, Vector.getElem_ofFn]
  case buffered => rw [if_pos h]
  case marker => rw [if_neg (by omega), if_pos h]
  case zeros => rw [if_neg (by omega), if_neg (by omega)]
  case zerosOfSecond => rw [if_pos (by omega)]

/-- Settles O24: a first FINALIZE leads to phase Finalized, where a second sets `rsp` alone. -/
theorem secondFinalizeIsRefused : Obligations.SecondFinalizeIsRefused := by
  refine ⟨fun s => exec_finalize_refused, fun s t hp h => ?second⟩
  case second =>
    rw [exec_finalize hp] at h
    obtain rfl := Host.Outcome.next.inj h
    exact ⟨_, exec_finalize_refused rfl, rfl, rfl⟩

/-! ### Every command -/

/-- Settles O26: INIT and the reserved command do the same in every phase, UPDATE and FINALIZE are refused in Finalized
and accepted in the two others. -/
theorem transitionTable : Obligations.TransitionTable := by
  refine fun s => ⟨⟨_, exec_init s, rfl, rfl⟩, fun d => ?update, ?finalize, ⟨_, exec_reserved s, rfl, rfl⟩,
    hostReset_phase s⟩
  case update =>
    cases hp : s.phase with
    | empty => exact ⟨_, exec_update (by simp [hp]) d, rfl⟩
    | accumulating => exact ⟨_, exec_update (by simp [hp]) d, rfl⟩
    | finalized => exact ⟨_, exec_update_refused hp d, by rw [hp]⟩
  case finalize =>
    cases hp : s.phase with
    | empty => exact ⟨_, exec_finalize (by simp [hp]), rfl⟩
    | accumulating => exact ⟨_, exec_finalize (by simp [hp]), rfl⟩
    | finalized => exact ⟨_, exec_finalize_refused hp, by rw [hp]⟩

/-- Settles O30: UPDATE and FINALIZE are split by the phase, which refuses or accepts them. -/
theorem writersOfBitlen : Obligations.WritersOfBitlen := by
  intro i s
  cases i with
  | init => exact ⟨_, exec_init s, rfl⟩
  | reserved => exact ⟨_, exec_reserved s, rfl⟩
  | update d =>
    by_cases hp : s.phase = .finalized
    · exact ⟨_, exec_update_refused hp d, (if_pos hp).symm⟩
    · exact ⟨_, exec_update hp d, (updated_bitlen d s).trans (if_neg hp).symm⟩
  | finalize =>
    by_cases hp : s.phase = .finalized
    · exact ⟨_, exec_finalize_refused hp, rfl⟩
    · exact ⟨_, exec_finalize hp, rfl⟩

end Sys2Proof.Machine
end

section
/-! The family of 60_exceptions.md: the two errors, the one status condition, and what a refused command leaves behind
(rules R110 to R114, R116). -/

namespace Sys2Proof.Machine

/-! ### A refused command -/

/-- A command that reports an error has set the response port and nothing else (rule R114). -/
theorem eq_withRsp_of_isError {i : Instr} {s t : State} {r : Response} (h : exec i s = .next t) (hr : t.rsp = some r)
    (he : r.isError = true) : t = { s with rsp := some r } := by
  have hok : t.rsp ≠ some .ok := by
    rw [hr]
    rintro ⟨⟩
    exact Bool.noConfusion he
  rw [← hr]
  rcases exec_cases h with ⟨-, rfl⟩ | ⟨-, rfl⟩ | ⟨-, -, rfl⟩ | ⟨d, -, -, rfl⟩ | ⟨-, -, rfl⟩
  · exact absurd rfl hok
  · rfl
  · rfl
  · exact absurd rfl hok
  · exact absurd rfl hok

/-- A command does the same whatever stands on the response port: it answers anew (rules R46, R114). -/
theorem exec_withRsp (i : Instr) (s : State) (r : Option Response) : exec i { s with rsp := r } = exec i s := by
  obtain ⟨t, -, h, -, hin⟩ := exec_answers i s
  rw [h, exec_withPorts h r s.input, ← hin]

/-- Settles O27: refusing a command sets `rsp` alone, which neither a port nor a command reads. -/
theorem refusedCommandChangesNothing : Obligations.RefusedCommandChangesNothing := by
  intro i s t r h hr he
  obtain rfl := eq_withRsp_of_isError h hr he
  exact ⟨rfl, rfl, rfl, rfl, fun j => exec_withRsp j s (some r)⟩

/-! ### The conditions -/

section
variable {i : Instr} {s t : State} (h : exec i s = .next t)
include h

/-- The condition of `InvalidState` (rule R111). -/
theorem rsp_invalidState_iff :
    t.rsp = some .invalidState ↔ s.phase = .finalized ∧ (i = .finalize ∨ ∃ d, i = .update d) := by
  rcases exec_cases h with ⟨rfl, rfl⟩ | ⟨rfl, rfl⟩ | ⟨hi, hp, rfl⟩ | ⟨d, -, hp, rfl⟩ | ⟨-, hp, rfl⟩
  · simp
  · simp
  · exact iff_of_true rfl ⟨hp, hi⟩
  · exact iff_of_false (by simp) fun hc => hp hc.1
  · exact iff_of_false (by simp [finalizedState]) fun hc => hp hc.1

/-- The condition of `InvalidCommand`, which does not ask for the phase (rules R112, R116). -/
theorem rsp_invalidCommand_iff : t.rsp = some .invalidCommand ↔ i = .reserved := by
  rcases exec_cases h with ⟨rfl, rfl⟩ | ⟨rfl, rfl⟩ | ⟨rfl | ⟨d, rfl⟩, -, rfl⟩ | ⟨d, rfl, -, rfl⟩ | ⟨rfl, -, rfl⟩
  · simp
  · exact iff_of_true rfl rfl
  · simp
  · simp
  · simp
  · simp [finalizedState]

end

/-- An accepted UPDATE raises `len_ovf` exactly by a carry (rule R17). -/
theorem updated_lenOvf_iff {s : State} (ho : s.lenOvf = false) (d : Byte) :
    (updated d s).lenOvf = true ↔ 2 ^ 64 ≤ s.bitlen.toNat + 8 := by
  rw [updated_lenOvf, lenOvfAfter, ho, Bool.false_or]
  exact decide_eq_true_iff

/-- The condition of `LengthOverflow`: the command that raises the flag is an accepted UPDATE (rules R110, R116). -/
theorem lenOvf_raised_iff {i : Instr} {s t : State} (h : exec i s = .next t) (ho : s.lenOvf = false) :
    t.lenOvf = true ↔ s.phase ≠ .finalized ∧ (∃ d, i = .update d) ∧ 2 ^ 64 ≤ s.bitlen.toNat + 8 := by
  rcases exec_cases h with ⟨rfl, rfl⟩ | ⟨rfl, rfl⟩ | ⟨-, hp, rfl⟩ | ⟨d, rfl, hp, rfl⟩ | ⟨rfl, -, rfl⟩
  · simp
  · simp [ho]
  · simp [ho, hp]
  · exact (updated_lenOvf_iff ho d).trans ⟨fun hc => ⟨hp, ⟨d, rfl⟩, hc⟩, fun ⟨_, _, hc⟩ => hc⟩
  · simp [finalizedState, forgetBuffer, ho]

/-- Settles O28: each condition is read off the cases of what a command can do. -/
theorem errorConditions : Obligations.ErrorConditions := by
  refine ⟨fun i s => ?conditions, rfl, rfl, rfl⟩
  case conditions =>
    obtain ⟨t, r, h, hr, -⟩ := exec_answers i s
    have hrsp (e : Response) : r = e ↔ t.rsp = some e := by rw [hr, Option.some_inj]
    exact ⟨t, r, h, hr, (hrsp _).trans (rsp_invalidState_iff h), (hrsp _).trans (rsp_invalidCommand_iff h),
      and_congr_right (lenOvf_raised_iff h)⟩

end Sys2Proof.Machine
end

section
/-! The decoder on every word and every number, and the assembler on the text of a command (rules R47, R48, R55). -/

namespace Sys2Proof.Machine

/-! ### The decoder -/

/-- The words of an instruction: those with its `op`, and for UPDATE its data byte (rules R48, R50). -/
theorem decodeWord_eq_iff (w : CommandWord) (i : Instr) :
    decodeWord w = i ↔ opField w = opField (encode i) ∧ ∀ d, i = .update d → dataField w = d := by
  constructor
  · rintro rfl
    have hop := opField_encode_decodeWord w
    refine ⟨hop.symm, fun d hd => ?_⟩
    rw [hd, encode, opField_makeWord] at hop
    rw [← makeWord_fields w, ← hop] at hd
    exact Instr.update.inj ((decodeWord_op_update _).symm.trans hd)
  · rintro ⟨hop, hdata⟩
    rw [← makeWord_fields w, hop]
    cases i with
    | init => exact decodeWord_op_init (dataField w)
    | update d =>
      rw [hdata d rfl, encode, opField_makeWord]
      exact decodeWord_op_update d
    | finalize => exact decodeWord_op_finalize (dataField w)
    | reserved => exact decodeWord_op_reserved (dataField w)

theorem decode_of_lt {w : Nat} (h : w < 2 ^ 10) : decode w = .ok (decodeWord (BitVec.ofNat 10 w)) :=
  if_pos (decide_eq_true h)

theorem decode_of_ge {w : Nat} (h : 2 ^ 10 ≤ w) : decode w = .error (.notTenBits w) :=
  if_neg (by rw [wordWellFormed, decide_eq_true_iff]; omega)

/-- A command word given in at least 10 bits keeps its value. -/
theorem toNat_mod_two_pow {nbits : Nat} (h : 10 ≤ nbits) (w : CommandWord) : w.toNat % 2 ^ nbits = w.toNat :=
  Nat.mod_eq_of_lt (w.isLt.trans_le (Nat.pow_le_pow_right (by decide) h))

theorem decodeTableWord_toNat {nbits : Nat} (h : 10 ≤ nbits) (w : CommandWord) :
    decodeTableWord nbits w.toNat = some (decodeWord w) := by
  rw [decodeTableWord, toNat_mod_two_pow h, decode_of_lt w.isLt, BitVec.ofNat_toNat, BitVec.setWidth_eq]

/-! ### The assembler -/

/-- A character that is no gap and no `#` goes on with the token it stands in (rule R55). -/
theorem lexLine_bare_cons {c : Char} (hash : c.toNat ≠ 35) (gap : isGap c = false) (t cs : List Char) :
    lexLine (.bare t) (c :: cs) = lexLine (.bare (t ++ [c])) cs := by
  simp only [lexLine, if_neg hash, gap, Bool.false_eq_true, if_false]

theorem hexDigit_hexChar : ∀ n < 16, hexDigit (hexChar n) = some n := by decide

theorem hexChar_continues_token : ∀ n < 16, (hexChar n).toNat ≠ 35 ∧ isGap (hexChar n) = false := by decide

/-- The byte operand that two hexadecimal digits spell. -/
theorem parseByte_hexChars {h l : Nat} (hh : h < 16) (hl : l < 16) :
    parseByte (.bare ['0', 'x', hexChar h, hexChar l]) = some (.hex (16 * h + l)) := by
  rw [parseByte, hexDigit_hexChar h hh, hexDigit_hexChar l hl]

/-- The tokens of an UPDATE line with two hexadecimal digits. -/
theorem lexLine_update {h l : Nat} (hh : h < 16) (hl : l < 16) :
    lexLine .gap ['U', 'P', 'D', 'A', 'T', 'E', ' ', '0', 'x', hexChar h, hexChar l]
      = some [.bare ['U', 'P', 'D', 'A', 'T', 'E'], .bare ['0', 'x', hexChar h, hexChar l]] := by
  have operand : lexLine (.bare ['0', 'x']) [hexChar h, hexChar l] = some [.bare ['0', 'x', hexChar h, hexChar l]] := by
    obtain ⟨hash, gap⟩ := hexChar_continues_token h hh
    obtain ⟨hash', gap'⟩ := hexChar_continues_token l hl
    rw [lexLine_bare_cons hash gap, lexLine_bare_cons hash' gap']
    rfl
  calc _ = (lexLine (.bare ['0', 'x']) [hexChar h, hexChar l]).map (.bare ['U', 'P', 'D', 'A', 'T', 'E'] :: ·) := rfl
    _ = _ := by rw [operand]; rfl

theorem parseLine_update (d : Byte) : parseLine (lineText (.update d)) = some (.update (.hex d.toNat)) := by
  have hd := d.isLt
  have hh : d.toNat / 16 < 16 := by omega
  have hl : d.toNat % 16 < 16 := by omega
  have wf : (SourceLine.update (.hex d.toNat)).wellFormed = true := decide_eq_true hd
  have operands : parseOperands ['U', 'P', 'D', 'A', 'T', 'E']
      [.bare ['0', 'x', hexChar (d.toNat / 16), hexChar (d.toNat % 16)]] = some (.update (.hex d.toNat)) := by
    simp [parseOperands, parseBytes, parseByte_hexChars hh hl, Nat.div_add_mod]
  simp only [parseLine, lineText, lexLine_update hh hl, operands, wf, if_true]

theorem assemble_singleton {l : List Char} {a : SourceLine} (h : parseLine l = some a) :
    assemble [l] = some (expandLine a) := by
  simp [assemble, h]

end Sys2Proof.Machine
end

section
/-! Steps by the host's next input, commands refused in phase Finalized, and the states that differ in stale bytes alone
(rules R6, R15, R85, R131). -/

namespace Sys2Proof.Machine

/-! ### Steps by the next input -/

theorem step_idle {s : State} (h : s.input = []) : step s = .next s := by rw [step, h]

theorem step_reset {s : State} {rest : List HostInput}
    (h : s.input = .reset :: rest ∨ ∃ w, s.input = .resetDuring w :: rest) :
    step s = .next (hostReset { s with input := rest }) := by
  obtain h | ⟨w, h⟩ := h <;> rw [step, h]

/-! ### Refused commands -/

/-- In phase Finalized every command but INIT is refused (rules R85, R110). -/
theorem exec_refused_of_finalized {i : Instr} {s : State} (hp : s.phase = .finalized) (hi : i ≠ .init) :
    ∃ r, r.isError = true ∧ exec i s = .next { s with rsp := some r } := by
  cases i with
  | init => exact absurd rfl hi
  | update d => exact ⟨_, rfl, exec_update_refused hp d⟩
  | finalize => exact ⟨_, rfl, exec_finalize_refused hp⟩
  | reserved => exact ⟨_, rfl, exec_reserved s⟩

/-! ### Stale bytes -/

section
variable {s t : State}

theorem validBytes_eq_of_empty (hs : s.bufLen = 0) (ht : t.bufLen = 0) : s.validBytes = t.validBytes :=
  (validBytes_of_empty hs).trans (validBytes_of_empty ht).symm

theorem State.SameButStale.outputs_eq (h : s.SameButStale t) : s.outputs = t.outputs := by
  simp only [State.outputs, State.status, State.digestValid, State.digest, State.rspCode, h.H, h.phase, h.lenOvf, h.rsp]

theorem State.SameButStale.withRsp (h : s.SameButStale t) (r : Option Response) :
    State.SameButStale { s with rsp := r } { t with rsp := r } :=
  { h with rsp := rfl, validBytes := h.validBytes }

theorem State.SameButStale.withInput (h : s.SameButStale t) (is : List HostInput) :
    State.SameButStale { s with input := is } { t with input := is } :=
  { h with input := rfl, validBytes := h.validBytes }

theorem State.SameButStale.initialized (h : s.SameButStale t) : (initialized s).SameButStale (initialized t) :=
  ⟨rfl, rfl, rfl, rfl, rfl, rfl, h.input, validBytes_eq_of_empty rfl rfl⟩

/-- What an accepted UPDATE transforms and keeps are the valid bytes and the new one, whatever stands beyond them. -/
theorem State.SameButStale.updated (h : s.SameButStale t) (d : Byte) :
    (updated d s).SameButStale (updated d t) := by
  obtain ⟨hH, hv⟩ := updated_absorbs d s
  obtain ⟨hH', hv'⟩ := updated_absorbs d t
  have valid : (Machine.updated d s).validBytes = (Machine.updated d t).validBytes := by rw [hv, hv', h.validBytes]
  refine ⟨?H, ?bitlen, ?bufLen, rfl, ?lenOvf, rfl, ?input, valid⟩
  case H => rw [hH, hH', h.H, h.validBytes]
  case bitlen => rw [updated_bitlen, updated_bitlen, h.bitlen]
  case bufLen =>
    apply BitVec.eq_of_toNat_eq
    rw [← length_validBytes, valid, length_validBytes]
  case lenOvf => rw [updated_lenOvf, updated_lenOvf, h.bitlen, h.lenOvf]
  case input => rw [updated_input, updated_input, h.input]

/-- FINALIZE pads the valid bytes alone. -/
theorem State.SameButStale.finalizedState (h : s.SameButStale t) :
    (finalizedState s).SameButStale (finalizedState t) := by
  refine ⟨?H, h.bitlen, rfl, rfl, h.lenOvf, rfl, h.input, validBytes_eq_of_empty rfl rfl⟩
  case H =>
    change finalState s = finalState t
    rw [finalState_eq, finalState_eq, h.H, h.validBytes, h.bufLen, h.bitlen]

theorem State.SameButStale.hostReset (h : s.SameButStale t) : (hostReset s).SameButStale (hostReset t) :=
  ⟨rfl, rfl, rfl, rfl, rfl, rfl, h.input, validBytes_eq_of_empty rfl rfl⟩

theorem State.SameButStale.exec (h : s.SameButStale t) (i : Instr) :
    ∃ s' t', exec i s = .next s' ∧ exec i t = .next t' ∧ s'.SameButStale t' := by
  cases i with
  | init => exact ⟨_, _, rfl, rfl, h.initialized⟩
  | reserved => exact ⟨_, _, rfl, rfl, h.withRsp _⟩
  | update d =>
    by_cases hp : s.phase = .finalized
    · exact ⟨_, _, exec_update_refused hp d, exec_update_refused (h.phase ▸ hp) d, h.withRsp _⟩
    · exact ⟨_, _, exec_update hp d, exec_update (h.phase ▸ hp) d, h.updated d⟩
  | finalize =>
    by_cases hp : s.phase = .finalized
    · exact ⟨_, _, exec_finalize_refused hp, exec_finalize_refused (h.phase ▸ hp), h.withRsp _⟩
    · exact ⟨_, _, exec_finalize hp, exec_finalize (h.phase ▸ hp), h.finalizedState⟩

theorem State.SameButStale.step (h : s.SameButStale t) :
    ∃ s' t', step s = .next s' ∧ step t = .next t' ∧ s'.SameButStale t' := by
  match hin : s.input with
  | [] => exact ⟨s, t, step_idle hin, step_idle (h.input ▸ hin), h⟩
  | .command w :: rest =>
    rw [step_command hin, step_command (h.input ▸ hin)]
    exact (h.withInput rest).exec (decodeWord w)
  | .reset :: rest =>
    exact ⟨_, _, step_reset (.inl hin), step_reset (.inl (h.input ▸ hin)), (h.withInput rest).hostReset⟩
  | .resetDuring w :: rest =>
    exact ⟨_, _, step_reset (.inr ⟨w, hin⟩), step_reset (.inr ⟨w, h.input ▸ hin⟩), (h.withInput rest).hostReset⟩

end

end Sys2Proof.Machine
end

section
/-! The working variables before each round, the stages bit by bit, and the blocks of a message and of its padding
(rules R71, R73, R75, R78, R89, R93, R94, R99, R103). -/

namespace Sys2Proof.Machine

/-! ### The rounds -/

/-- The working variables before round `t` (rules R70, R75). -/
def workingVariables (S : Chain) (B : Block) (t : Nat) : Chain := runRounds 0 ((schedule B).take t) S

theorem workingVariables_succ (S : Chain) (B : Block) {t : Nat} (h : t < 80) :
    workingVariables S B (t + 1) = roundStep t ((schedule B).getD t 0) (workingVariables S B t) := by
  have ht : t < (schedule B).length := by rwa [length_schedule]
  have hlen : 0 + ((schedule B).take t).length = t := by rw [List.length_take]; omega
  rw [workingVariables, List.take_succ_eq_append_getElem ht, runRounds_append, hlen, List.getD_eq_getElem _ _ ht]
  rfl

theorem transform_eq_addBack (S : Chain) (B : Block) : transform S B = addBack S (workingVariables S B 80) := by
  rw [transform, workingVariables, List.take_of_length_le (length_schedule B).le]

/-! ### The stages, bit by bit -/

theorem getLsbD_stageSelect (b c d : Word) {i : Nat} (h : i < 32) :
    (stageSelect b c d).getLsbD i = if b.getLsbD i then c.getLsbD i else d.getLsbD i := by
  have select : ∀ x y z : Bool, (x && y || !x && z) = if x then y else z := by decide
  rw [stageSelect, BitVec.getLsbD_or, BitVec.getLsbD_and, BitVec.getLsbD_and, BitVec.getLsbD_not, decide_eq_true h,
    Bool.true_and, select]

theorem getLsbD_stageMajority (b c d : Word) (i : Nat) :
    (stageMajority b c d).getLsbD i
      = decide (2 ≤ (b.getLsbD i).toNat + (c.getLsbD i).toNat + (d.getLsbD i).toNat) := by
  have majority : ∀ x y z : Bool, (x && y || x && z || y && z) = decide (2 ≤ x.toNat + y.toNat + z.toNat) := by
    decide
  simp only [stageMajority, BitVec.getLsbD_or, BitVec.getLsbD_and, majority]
/-! ### Blocks -/

/-- The complete blocks among the buffered bytes and one more: one block exactly at `buf_len` 63 (rule R89). -/
theorem blocksOf_validBytes_append (d : Byte) (s : State) :
    blocksOf (s.validBytes ++ [d]) = if s.bufLen = 63 then [(storeByte d (countByte s)).bufBlock] else [] := by
  have hlen : (s.validBytes ++ [d]).length = s.bufLen.toNat + 1 := by
    rw [List.length_append, length_validBytes, List.length_singleton]
  split
  · next h =>
    rw [blocksOf_one (by rw [hlen, bufLen_eq_63.1 h]), bufBlock_full h]
  · next h =>
    have hlt := bufLen_lt s
    have hne := mt bufLen_eq_63.2 h
    exact blocksOf_short (by omega)

theorem blocksOf_append_byte {M : List Byte} {s : State} (h : s.Absorbed M) (hp : s.phase ≠ .finalized) (d : Byte) :
    blocksOf (M ++ [d]) = blocksOf M ++ blocksOf (s.validBytes ++ [d]) := by
  obtain ⟨-, -, hv⟩ := absorbed_facts h hp
  rw [blocksOf_append, hv]

/-- The blocks that FINALIZE transforms (rules R93, R94). -/
def paddingBlocks (s : State) : List Block :=
  if s.bufLen.toNat ≤ 55 then [oneBlockPadding s] else [firstOfTwoPadding s, secondOfTwoPadding s.bitlen]

theorem finalState_eq_foldTransform (s : State) : finalState s = foldTransform s.H (paddingBlocks s) := by
  rw [finalState_eq, blocksOf_padding, paddingBlocks]

/-! ### The padded message -/

theorem padZeros_le (L : Nat) : padZeros L ≤ 63 := by rw [padZeros_eq]; split <;> omega

theorem cast_padZeros (L : Nat) : (padZeros L : Int) = (55 - (L : Int)) % 64 :=
  Int.toNat_of_nonneg (Int.emod_nonneg _ (by decide))

theorem length_padMessage (M : List Byte) : (padMessage M).length = M.length + 9 + padZeros M.length := by
  simp only [padMessage, List.length_append, List.length_singleton, length_zeros, length_len8]
  omega

/-- The padded message is a whole number of blocks (rules R99, R103). -/
theorem length_padMessage_eq (M : List Byte) : (padMessage M).length = 64 * ((M.length + 8) / 64 + 1) := by
  rw [length_padMessage, padZeros_eq]
  split <;> omega

/-! ### INIT, reset and the UPDATEs of a message -/

theorem hostReset_absorbed (s : State) : (hostReset s).Absorbed [] :=
  (absorbed_iff_of_empty rfl []).2 ⟨rfl, rfl, rfl, rfl, rfl⟩

theorem hostReset_status (s : State) : (hostReset s).status = 0b000 := by
  rw [State.status, hostReset_lenOvf, hostReset_phase]
  rfl

theorem hostReset_not_finalized (s : State) : (hostReset s).phase ≠ .finalized := Phase.noConfusion

/-- INIT and the UPDATEs of a message, from every state (rules R57, R99). -/
theorem runCommands_init_updateChunk (M : List Byte) (s : State) :
    runCommands (.init :: updateChunk M) s
      = some (updatedAll M (initialized s), List.replicate (M.length + 1) .ok) :=
  runCommands_cons (exec_init_eq_initialized s) rfl (runCommands_updateChunk (initialized_not_finalized s) M)

end Sys2Proof.Machine
end

section
/-! The statements that belong to no one chapter: the decoder and the assembler, reset and steps, the invariant, the
stale bytes, the rounds, and the number of transforms of a message. -/

namespace Sys2Proof.Machine

/-! ### Encoding (30_encoding.md) -/

/-- Settles O4: the decoder looks at `op` and, for UPDATE, at the data byte, and a number of at least 10 bits keeps
both. -/
theorem decodeOfEncode : Obligations.DecodeOfEncode := by
  refine fun i => ⟨decodeWord_encode i, fun nbits h => ?table, fun w => decodeWord_eq_iff w i⟩
  case table => rw [decodeTableWord_toNat h, decodeWord_encode]

/-- Settles O1: eight closed words. -/
theorem decodeReadsSpecWords : Obligations.DecodeReadsSpecWords := by
  unfold Obligations.DecodeReadsSpecWords
  decide

/-- Settles O5, by the bound of 10 bits. -/
theorem widerWordsAreRejected : Obligations.WiderWordsAreRejected := fun _ => ⟨decode_of_ge, decode_of_lt⟩

/-- Settles O6: the lexer and the parser undo the spelling of UPDATE's byte; the other lines are closed texts. -/
theorem lineTextAssembles : Obligations.LineTextAssembles := by
  refine ⟨fun i => ?line, by decide⟩
  case line =>
    cases i with
    | init => exact assemble_singleton (a := .init) rfl
    | update d =>
      rw [assemble_singleton (parseLine_update d), expandLine, operandByte, BitVec.ofNat_toNat, BitVec.setWidth_eq]
      rfl
    | finalize => exact assemble_singleton (a := .finalize) rfl
    | reserved => exact assemble_singleton (a := .reserved) rfl

/-! ### Reset and steps (R6, R39, R79, R131) -/

/-- Settles O9: both forms of reset take the same step. -/
theorem hostResetFromEveryState : Obligations.HostResetFromEveryState := fun _ _ h =>
  ⟨_, step_reset h, rfl, rfl, rfl, rfl, rfl, rfl, rfl, hostReset_status _, rfl, rfl⟩

/-- Settles O10: presenting a command and taking it from the inputs gives the state back. -/
theorem stepRunsTheDecodedCommand : Obligations.StepRunsTheDecodedCommand := by
  have fetch (s : State) (nbits w : Nat) :
      step (s.withFetchWord nbits w) = exec (decodeWord (BitVec.ofNat 10 (w % 2 ^ nbits))) s :=
    step_command (withFetchWord_input s nbits w)
  refine ⟨fun s w rest => step_command, fetch, fun s i => ?_⟩
  rw [fetch, toNat_mod_two_pow (by decide), BitVec.ofNat_toNat, BitVec.setWidth_eq, decodeWord_encode]

/-- Settles O11, by the step's case of no input. -/
theorem stepWithoutInputDoesNothing : Obligations.StepWithoutInputDoesNothing := fun _ => step_idle

/-- Settles O12: every step and every command has a next state. -/
theorem nothingStopsTheCore : Obligations.NothingStopsTheCore := by
  refine ⟨step_answers, fun i s => ?_⟩
  obtain ⟨t, r, h, hr, -⟩ := exec_answers i s
  exact ⟨t, r, h, hr⟩

/-! ### The invariant (R23, R24) -/

/-- Settles O50, by the cases of what a step can do. -/
theorem stepKeepsInvariant : Obligations.StepKeepsInvariant := fun _ _ => step_keeps_inv

/-- Settles O49: a state in phase Empty with the reset values stands for the empty message. -/
theorem resetMeetsInvariant : Obligations.ResetMeetsInvariant := reset_inv

/-- Settles O52, item by item from the message that the state stands for. -/
theorem invariantGivesStateFacts : Obligations.InvariantGivesStateFacts := fun _ => inv_facts

/-! ### Bytes beyond `buf_len`, and the digest once produced (R15, R20) -/

/-- Settles O38: the ports and every step depend on the fields that the two states share. -/
theorem staleBytesAreNeverRead : Obligations.StaleBytesAreNeverRead := by
  intro s t h
  obtain ⟨s', t', hs, ht, h'⟩ := h.step
  exact ⟨h.outputs_eq, s', t', hs, ht, h', h'.outputs_eq⟩

/-- Settles O36, by induction on the commands: each is refused, which sets `rsp` alone. -/
theorem digestIsImmutable : Obligations.DigestIsImmutable := by
  intro is
  induction is with
  | nil => exact fun s hp _ => ⟨s, [], rfl, rfl, if_pos hp, rfl, List.forall_mem_nil _⟩
  | cons i is ih =>
    intro s hp hmem
    obtain ⟨hi, his⟩ := List.ne_and_not_mem_of_not_mem_cons hmem
    obtain ⟨r, hr, he⟩ := exec_refused_of_finalized hp hi.symm
    obtain ⟨t, rs, hrun, hd, hv, hlen, herr⟩ := ih { s with rsp := some r } hp his
    exact ⟨t, r :: rs, runCommands_cons he rfl hrun, hd, hv, congrArg Nat.succ hlen,
      List.forall_mem_cons.2 ⟨hr, herr⟩⟩

/-! ### The Block Transform (40_block_transform.md) -/

/-- Settles O46: the sequence is that of the working variables before each round. -/
theorem transformIsEightyRounds : Obligations.TransformIsEightyRounds := fun S B =>
  ⟨workingVariables S B, rfl, fun _ => workingVariables_succ S B, transform_eq_addBack S B⟩

/-- Settles O44: a bit of each function is the function of the three bits. -/
theorem stageFunctionsBitwise : Obligations.StageFunctionsBitwise := fun b c d i h =>
  ⟨getLsbD_stageSelect b c d h, getLsbD_stageMajority b c d i⟩

/-! ### Messages (R99, R103, R104, R132) -/

/-- Settles O31: the core has absorbed one byte more, and the flag and the counter are those of `L + 1` bytes. -/
theorem counterWrapsAtByte2Pow61 : Obligations.CounterWrapsAtByte2Pow61 := by
  intro M s d hM hp
  have hM' := updated_absorbed hM hp d
  have hlen : (M ++ [d]).length = M.length + 1 := List.length_append
  have ⟨hb, ho, _⟩ := hM'
  rw [hlen] at hb ho
  refine ⟨updated d s, exec_update hp d, rfl, hM', fun hlt => ?below, fun heq => ?wrap⟩
  case below =>
    have ho' : (updated d s).lenOvf = false := ho.trans (decide_eq_false (by omega))
    exact ⟨ho', hlen ▸ absorbed_bitlen_of_no_overflow hM' ho'⟩
  case wrap =>
    obtain ⟨-, hos, -⟩ := hM
    exact ⟨by rw [hb, heq]; rfl, hos.trans (decide_eq_false (by omega)), ho.trans (decide_eq_true (by omega))⟩

/-- Settles O53: `z` brings the message, the marker and the length field to a whole number of blocks. -/
theorem paddedMessageShape : Obligations.PaddedMessageShape := fun M =>
  ⟨padZeros M.length, padZeros_le M.length, cast_padZeros M.length, rfl, length_padMessage M,
    Dvd.intro _ (length_padMessage_eq M).symm⟩

/-- Settles O54: what is transformed are the blocks of the bytes absorbed, then those of the padding. -/
theorem numberOfTransforms : Obligations.NumberOfTransforms := by
  refine ⟨fun M s hM hp => ?absorbed, fun M s => ?reached⟩
  case absorbed =>
    obtain ⟨-, hH, -⟩ := absorbed_facts hM hp
    refine ⟨⟨hH, length_blocksOf M⟩, fun d => ?update, ?finalize⟩
    case update =>
      obtain ⟨hU, -⟩ := updated_absorbs d s
      exact ⟨_, _, exec_update hp d, hU, blocksOf_validBytes_append d s, blocksOf_append_byte hM hp d⟩
    case finalize =>
      have hlen : (blocksOf (padMessage M)).length = (M.length + 8) / 64 + 1 := by
        rw [length_blocksOf, length_padMessage_eq, Nat.mul_div_cancel_left _ (by decide)]
      exact ⟨_, paddingBlocks s, exec_finalize hp, finalState_eq_foldTransform s, fun h => if_pos h,
        fun h => if_neg (by omega), blocksOf_padMessage hM hp, finalState_of_absorbed hM hp, hlen⟩
  case reached =>
    exact ⟨_, runCommands_init_updateChunk M s,
      updatedAll_absorbed (initialized_absorbed s) (initialized_not_finalized s) M,
      updatedAll_not_finalized (initialized_not_finalized s) M⟩

/-- Settles O56: after reset a core has absorbed nothing, as after INIT. -/
theorem digestAfterReset : Obligations.DigestAfterReset := by
  intro M s
  have hp := hostReset_not_finalized s
  have hM := finalizedState_absorbed (updatedAll_absorbed (hostReset_absorbed s) hp M) (updatedAll_not_finalized hp M)
  exact ⟨_, runCommands_updateChunk_finalize hp M, rfl, digest_of_absorbed hM rfl, hM.2.1⟩

end Sys2Proof.Machine
end
